-- ==== Sys2Proof/Word.lean ====
section
/-! DEFINITION. The two kinds of value the block moves: bus words (R7, R80, R84) and numbers of NUM (R10, R11). -/

namespace Sys2Proof

/-- A 32-bit word: the command word, always (R84), and a word on the operand and response buses where NUM_W is 32, as in the
default implementation (R6). -/
abbrev Word := BitVec 32

/-- A number of the default NUM, IEEE 754 binary32 without NaN, infinity and negative zero (R10, R11).
Every finite binary32 number is a whole multiple of 2^-149; `units` is that multiple. So the exact value is
`units / 2^149`, zero has one form, and comparison of numbers is comparison of integers.
Which integers stand for a binary32 number is said by `Machine.isBinary32` (Machine/Binary32.lean). -/
structure Num32 where
  units : Int
  deriving DecidableEq, Repr

end Sys2Proof
end

