-- ==== Sys2Proof/Syntax.lean ====
section
/-! DEFINITION. The twenty commands (R86) and the five reject codes (R211) as data. -/

namespace Sys2Proof

/-- The INST field: which oscillator a command of format I or IF names (R87). -/
inductive OscId where
  | osc1 | osc2
  deriving DecidableEq, Repr

/-- One constructor per row of the opcode map (R86). `addr` is the ADDR field, a REG-space address (R87); the Booleans are
the flags TF, TC of `OSC.UPD` and TF, TQ of `FLT.APPLY` (R87). The numeric operands are on the buses, not in the
command (R81). -/
inductive Instr where
  | nop
  | wrr (addr : Nat)
  | rdr (addr : Nat)
  | envOn
  | envOff
  | envNext
  | envClosed
  | oscStart (k : OscId)
  | oscUpd (k : OscId) (tf tc : Bool)
  | oscNext (k : OscId)
  | noiseStart
  | noiseStop
  | noiseUpd
  | noiseNext
  | lfoUpd
  | lfoNext
  | lfoQry
  | fltStart
  | fltStop
  | fltApply (tf tq : Bool)
  deriving DecidableEq, Repr

/-- The reject codes of R211, by name. -/
inductive RejectCode where
  | illegalOp | reservedField | badAddr | roWrite | badOperand
  deriving DecidableEq, Repr

end Sys2Proof
end

