-- ==== Sys2Proof/WellFormed.lean ====
section
/-! DEFINITION. Which terms of `Instr` are commands: every field within what its bits can hold (R84, R87). -/

namespace Sys2Proof

/-- The ADDR field has eight bits (R84); every other field is of its exact type. All 256 addresses are well formed, also the
unimplemented ones: those decode, and the command then rejects (R90, R212). -/
def Instr.wf : Instr → Bool
  | .wrr addr => addr < 256
  | .rdr addr => addr < 256
  | .nop | .envOn | .envOff | .envNext | .envClosed => true
  | .oscStart _ | .oscUpd _ _ _ | .oscNext _ => true
  | .noiseStart | .noiseStop | .noiseUpd | .noiseNext => true
  | .lfoUpd | .lfoNext | .lfoQry => true
  | .fltStart | .fltStop | .fltApply _ _ => true

end Sys2Proof
end

