-- ==== Sys2Proof/Decode.lean ====
section
/-! DEFINITION. The command decoder (R84 to R90), total on 32-bit words, and the encoder (R85, R92). -/

namespace Sys2Proof

/-- The five formats of R85. -/
inductive Format where
  | fmtN | fmtR | fmtI | fmtIF | fmtF
  deriving DecidableEq, Repr

/-- The twenty opcodes of R86, as the rows of the table before their fields are read. -/
inductive Opcode where
  | nop | wrr | rdr
  | envOn | envOff | envNext | envClosed
  | oscStart | oscUpd | oscNext
  | noiseStart | noiseStop | noiseUpd | noiseNext
  | lfoUpd | lfoNext | lfoQry
  | fltStart | fltStop | fltApply
  deriving DecidableEq, Repr

/-- The fixed-bit mask of a format (R85). -/
def formatMask : Format → Word
  | .fmtN => 0xFFFFFFFF
  | .fmtR => 0xFF00FFFF
  | .fmtI => 0xFFFFFEFF
  | .fmtIF => 0xFFFFFEFC
  | .fmtF => 0xFFFFFFFC

/-- The OP value of a row (R86). -/
def opcodeByte : Opcode → BitVec 8
  | .nop => 0x00
  | .wrr => 0x01
  | .rdr => 0x02
  | .envOn => 0x10
  | .envOff => 0x11
  | .envNext => 0x13
  | .envClosed => 0x14
  | .oscStart => 0x20
  | .oscUpd => 0x22
  | .oscNext => 0x23
  | .noiseStart => 0x30
  | .noiseStop => 0x31
  | .noiseUpd => 0x32
  | .noiseNext => 0x33
  | .lfoUpd => 0x42
  | .lfoNext => 0x43
  | .lfoQry => 0x44
  | .fltStart => 0x50
  | .fltStop => 0x51
  | .fltApply => 0x53

/-- The format of a row (R86). -/
def opcodeFormat : Opcode → Format
  | .wrr | .rdr => .fmtR
  | .oscStart | .oscNext => .fmtI
  | .oscUpd => .fmtIF
  | .fltApply => .fmtF
  | .nop | .envOn | .envOff | .envNext | .envClosed => .fmtN
  | .noiseStart | .noiseStop | .noiseUpd | .noiseNext => .fmtN
  | .lfoUpd | .lfoNext | .lfoQry | .fltStart | .fltStop => .fmtN

/-- The table's rows in its order. -/
def opcodeRows : List Opcode :=
  [.nop, .wrr, .rdr, .envOn, .envOff, .envNext, .envClosed, .oscStart, .oscUpd, .oscNext,
   .noiseStart, .noiseStop, .noiseUpd, .noiseNext, .lfoUpd, .lfoNext, .lfoQry, .fltStart, .fltStop, .fltApply]

/-- The row whose OP is the given byte, if any. -/
def opcodeOf? (op : BitVec 8) : Option Opcode :=
  opcodeRows.find? fun o => opcodeByte o == op

/-- The OP field (R84). -/
def fieldOp (w : Word) : BitVec 8 := w.extractLsb' 24 8

/-- The ADDR field (R84, R87). -/
def fieldAddr (w : Word) : Nat := (w.extractLsb' 16 8).toNat

/-- The INST field (R84, R87): 0 is OSC1, 1 is OSC2. -/
def fieldInst (w : Word) : OscId := if w.getLsbD 8 then .osc2 else .osc1

/-- The match word of a row: `OP << 24` (R85). -/
def matchWord (o : Opcode) : Word := (opcodeByte o).setWidth 32 <<< 24

/-- The command a row's word stands for, its fields read (R87): bit 0 is TF, bit 1 is TC or TQ. -/
def buildInstr (o : Opcode) (w : Word) : Instr :=
  match o with
  | .nop => .nop
  | .wrr => .wrr (fieldAddr w)
  | .rdr => .rdr (fieldAddr w)
  | .envOn => .envOn
  | .envOff => .envOff
  | .envNext => .envNext
  | .envClosed => .envClosed
  | .oscStart => .oscStart (fieldInst w)
  | .oscUpd => .oscUpd (fieldInst w) (w.getLsbD 0) (w.getLsbD 1)
  | .oscNext => .oscNext (fieldInst w)
  | .noiseStart => .noiseStart
  | .noiseStop => .noiseStop
  | .noiseUpd => .noiseUpd
  | .noiseNext => .noiseNext
  | .lfoUpd => .lfoUpd
  | .lfoNext => .lfoNext
  | .lfoQry => .lfoQry
  | .fltStart => .fltStart
  | .fltStop => .fltStop
  | .fltApply => .fltApply (w.getLsbD 0) (w.getLsbD 1)

/-- R90: an OP outside the map is ILLEGAL_OP; a row's word with a fixed bit wrong is RESERVED_FIELD; any other word is
exactly one command. -/
def decode (w : Word) : Except RejectCode Instr :=
  match opcodeOf? (fieldOp w) with
  | none => .error .illegalOp
  | some o =>
    if w &&& formatMask (opcodeFormat o) = matchWord o then .ok (buildInstr o w)
    else .error .reservedField

/-- The row a command belongs to. -/
def opcodeOfInstr : Instr → Opcode
  | .nop => .nop
  | .wrr _ => .wrr
  | .rdr _ => .rdr
  | .envOn => .envOn
  | .envOff => .envOff
  | .envNext => .envNext
  | .envClosed => .envClosed
  | .oscStart _ => .oscStart
  | .oscUpd _ _ _ => .oscUpd
  | .oscNext _ => .oscNext
  | .noiseStart => .noiseStart
  | .noiseStop => .noiseStop
  | .noiseUpd => .noiseUpd
  | .noiseNext => .noiseNext
  | .lfoUpd => .lfoUpd
  | .lfoNext => .lfoNext
  | .lfoQry => .lfoQry
  | .fltStart => .fltStart
  | .fltStop => .fltStop
  | .fltApply _ _ => .fltApply

/-- `k << 8` of R92. -/
def instBit : OscId → Word
  | .osc1 => 0
  | .osc2 => 0x100

/-- `2*F1 + F0` of R92. -/
def flagBits (f1 f0 : Bool) : Word := (if f1 then 2 else 0) + (if f0 then 1 else 0)

/-- The word of a command, from the table of R92. -/
def encode : Instr → Word
  | .nop => 0x00000000
  | .wrr addr => 0x01000000 + (BitVec.ofNat 32 addr <<< 16)
  | .rdr addr => 0x02000000 + (BitVec.ofNat 32 addr <<< 16)
  | .envOn => 0x10000000
  | .envOff => 0x11000000
  | .envNext => 0x13000000
  | .envClosed => 0x14000000
  | .oscStart k => 0x20000000 + instBit k
  | .oscUpd k tf tc => 0x22000000 + instBit k + flagBits tc tf
  | .oscNext k => 0x23000000 + instBit k
  | .noiseStart => 0x30000000
  | .noiseStop => 0x31000000
  | .noiseUpd => 0x32000000
  | .noiseNext => 0x33000000
  | .lfoUpd => 0x42000000
  | .lfoNext => 0x43000000
  | .lfoQry => 0x44000000
  | .fltStart => 0x50000000
  | .fltStop => 0x51000000
  | .fltApply tf tq => 0x53000000 + flagBits tq tf

/-- The decoder on a word numbered as the opcode table numbers it: every command is one 32-bit word (R84), so the bits above
`nbits` are 0 and the word is the command word itself. -/
def decodeTableWord (nbits w : Nat) : Option Instr :=
  match decode (BitVec.ofNat 32 (w % 2 ^ nbits)) with
  | .ok i => some i
  | .error _ => none

end Sys2Proof
end

