-- ==== Sys2Proof/Config.lean ====
section
/-! DEFINITION. The configuration record of the block (R6, R10) and the values the spec leaves free. -/

namespace Sys2Proof

/-- The four NUM operations that can leave the range of a rounding number system. -/
inductive NumOp where
  | add | sub | mul | div
  deriving DecidableEq, Repr

/-- NUM as a record (R10): a number system over the carrier `α`. `lit n d` is the NUM value nearest to `n/d`;
the four functions and the constant are those of R12 to R16. -/
structure NumSystem (α : Type) where
  zero : α
  one : α
  lit : Int → Nat → α
  add : α → α → α
  sub : α → α → α
  mul : α → α → α
  div : α → α → α
  lt : α → α → Bool
  le : α → α → Bool
  floor : α → α
  sin2pi : α → α
  tanh : α → α
  exp2 : α → α
  tanpi : α → α
  twoPi : α

/-- The implementation parameters of R6 other than NUM, each under its name there. `numW` is NUM_W, the width of the operand and
result buses and of a numeric register on them; at least 32. -/
structure Constants (α : Type) where
  numW : Nat
  fsMin : α
  tMin : α
  envEps : α
  phase0 : α
  centsPerOctave : α
  kOscFreq : α
  kOscCents : α
  nFcMin : α
  nFcSpan : α
  nAttack : α
  nRelease : α
  nDurMax : α
  nDecHeld : α
  rngSeed : BitVec 32
  kFltFreq : α
  kFltQ : α
  fcMin : α
  fcMax : α
  fcFrac : α
  qMin : α
  qMax : α
  fsReset : α

/-- The one configuration record R6 asks for: the number system and the implementation parameters. -/
structure Config (α : Type) extends NumSystem α, Constants α

/-- The configuration with the layout of NUM on a bus of NUM_W bits (R11, R62): the encoding of a number, and the number a bus
word denotes, none where it denotes no finite number (R213). It is all that a CORE is built from; `Machine.block`
(Machine/Block.lean) takes it as its argument. -/
structure PortConfig (α : Type) extends Config α where
  encode : α → BitVec numW
  decode : BitVec numW → Option α

namespace Config

/-- FREE VALUE (log entry 3). What a binary32 operation gives when its rounded result leaves the range
(R11: not specified). It may differ from one command to the next (the first argument counts commands), by operation and by
operands. -/
opaque overflowFree : Nat → NumOp → Int → Int → Int

/-- FREE VALUE (log entry 4). What a binary32 division by zero gives, as a function of the dividend (R153, U9: not
specified). -/
opaque divZeroFree : Int → Int

/-- FREE VALUE (log entry 4). The same for the reference number system. -/
opaque refDivZeroFree : ℝ → ℝ

/-- FREE VALUE (log entry 5). SIN2PI of binary32 away from its named points (R12). -/
opaque sin2piFree : Int → Int

/-- FREE VALUE (log entry 5). TANH of binary32 on magnitudes. The type says the one thing R13 says that a single value cannot: it
is monotone. -/
opaque tanhFree : Nat →o Nat

/-- FREE VALUE (log entry 5). EXP2 of binary32 away from the integers -16 to 16, in units; monotone (R14). Its argument is
`exp2Index`, the number's place in the order of all numbers. -/
opaque exp2Free : Nat →o Nat

/-- FREE VALUE (log entry 5). TANPI of binary32 away from 1/4, in units, for a non-negative argument in units; monotone
(R15). -/
opaque tanpiFree : Nat →o Nat

end Config

end Sys2Proof
end

