-- ==== Sys2Proof/Machine/Binary32.lean ====
section
/-! DEFINITION. The number systems: IEEE 754 binary32, the default implementation of NUM which the machine runs (R10, R11,
R62), the default values of R6, and the generic primitives of R8. -/

namespace Sys2Proof.Machine

/-! ### Primitives of R8 over any NUM -/

/-- `min(x, y)`. -/
def numMin {α : Type} (C : Config α) (x y : α) : α := if C.le x y then x else y

/-- `max(x, y)`. -/
def numMax {α : Type} (C : Config α) (x y : α) : α := if C.le x y then y else x

/-- `clamp(v, lo, hi) = min(max(v, lo), hi)`, which is `hi` when `lo > hi`. -/
def numClamp {α : Type} (C : Config α) (v lo hi : α) : α := numMin C (numMax C v lo) hi

/-- `frac(x) = x - floor(x)`. -/
def numFrac {α : Type} (C : Config α) (x : α) : α := C.sub x (C.floor x)

/-- The defaults of R6, from the literals of a number system. NUM_W is that of binary32. -/
def defaultConstants {α : Type} (lit : Int → Nat → α) : Constants α where
  numW := 32
  fsMin := lit 1 1
  tMin := lit 1 (2 ^ 20)
  envEps := lit 1 (10 ^ 6)
  phase0 := lit 0 1
  centsPerOctave := lit 1200 1
  kOscFreq := lit 16 1
  kOscCents := lit 100 1
  nFcMin := lit 20 1
  nFcSpan := lit 5000 1
  nAttack := lit 1 (2 ^ 8)
  nRelease := lit 1 (2 ^ 8)
  nDurMax := lit 4 1
  nDecHeld := lit (2 ^ 20) 1
  rngSeed := 0x00000001
  kFltFreq := lit 1024 1
  kFltQ := lit 4 1
  fcMin := lit 20 1
  fcMax := lit 20000 1
  fcFrac := lit 7 16
  qMin := lit 1 2
  qMax := lit 16 1
  fsReset := lit 48000 1

/-! ### Rounding -/

/-- The number 1, in units of 2^-149. -/
def unitsOne : Nat := 2 ^ 149

/-- The greatest binary32 magnitude, `(2^24 - 1) * 2^104`, in units. -/
def maxMag : Nat := (2 ^ 24 - 1) * 2 ^ 253

/-- The spacing of binary32 numbers at a magnitude whose whole part is `m` units: numbers have 24 significant bits and no
bit below 2^-149. -/
def spacing (m : Nat) : Nat := 2 ^ (Nat.log2 m - 23)

/-- The magnitude nearest to `n / d` units with 24 significant bits, ties to the even one (R10). The exponent is not
bounded above here. -/
def roundMag (n d : Nat) : Nat :=
  let u := spacing (n / d)
  let q := n / (d * u)
  let r := n % (d * u)
  if d * u < 2 * r ∨ (2 * r = d * u ∧ q % 2 = 1) then (q + 1) * u else q * u

/-- `m` with the sign of `n`. -/
def withSign (n : Int) (m : Nat) : Num32 := ⟨if n < 0 then -(m : Int) else m⟩

/-- Which integers are binary32 numbers: at most 24 significant bits, in range. -/
def isBinary32 (x : Num32) : Bool :=
  x.units.natAbs % spacing x.units.natAbs == 0 && decide (x.units.natAbs ≤ maxMag)

/-- Some binary32 number for every integer: the nearest one, within range. It makes a free integer a free number. -/
def toBinary32 (v : Int) : Num32 := withSign v (roundMag (min v.natAbs maxMag) 1)

/-- The rounded quotient `n / d` units; out of range, the free value (R11, log entry 3). -/
def finishOp (count : Nat) (op : NumOp) (x y : Num32) (n : Int) (d : Nat) : Num32 :=
  if roundMag n.natAbs d ≤ maxMag then withSign n (roundMag n.natAbs d)
  else toBinary32 (Config.overflowFree count op x.units y.units)

/-! ### The operations of binary32 (R10) -/

/-- Addition. -/
def add32 (count : Nat) (x y : Num32) : Num32 := finishOp count .add x y (x.units + y.units) 1

/-- Subtraction. -/
def sub32 (count : Nat) (x y : Num32) : Num32 := finishOp count .sub x y (x.units - y.units) 1

/-- Multiplication. -/
def mul32 (count : Nat) (x y : Num32) : Num32 := finishOp count .mul x y (x.units * y.units) unitsOne

/-- Division; by zero, the free value (log entry 4). -/
def div32 (count : Nat) (x y : Num32) : Num32 :=
  if y.units = 0 then toBinary32 (Config.divZeroFree x.units)
  else finishOp count .div x y (x.units * unitsOne * y.units.sign) y.units.natAbs

/-- `floor(x)`, exact. -/
def floor32 (x : Num32) : Num32 := ⟨x.units / (unitsOne : Int) * unitsOne⟩

/-- The number nearest to `n / d` (R10, R119). Every literal of the spec is in range. -/
def lit32 (n : Int) (d : Nat) : Num32 := withSign n (min (roundMag (n.natAbs * unitsOne) d) maxMag)

/-- SIN2PI (R12): its named points, its bounds and its sign hold by construction, its other values are free. -/
def sin2pi32 (p : Num32) : Num32 :=
  if p.units = 0 then ⟨0⟩
  else if p.units = 2 ^ 147 then ⟨2 ^ 149⟩
  else if p.units = 2 ^ 148 then ⟨0⟩
  else if p.units = 3 * 2 ^ 147 then ⟨-2 ^ 149⟩
  else if p.units < 2 ^ 148 then ⟨max 0 (min (toBinary32 (Config.sin2piFree p.units)).units (2 ^ 149))⟩
  else ⟨max (-2 ^ 149) (min (toBinary32 (Config.sin2piFree p.units)).units 0)⟩

/-- TANH on a magnitude: 0 at 0, monotone, at most 1, otherwise free. -/
def tanhMag (m : Nat) : Nat :=
  if m = 0 then 0 else roundMag (min (Config.tanhFree m) unitsOne) 1

/-- TANH (R13): odd by construction. -/
def tanh32 (x : Num32) : Num32 := withSign x.units (tanhMag x.units.natAbs)

/-- `2^k` for `-149 ≤ k`, in units. -/
def pow2Units (k : Int) : Int := 2 ^ (149 + k).toNat

/-- A number's place in the order of all binary32 numbers, whose magnitudes are below 2^277 units. -/
def exp2Index (x : Num32) : Nat := (x.units + 2 ^ 277).toNat

/-- EXP2 (R14): exact at the integers -16 to 16, monotone and positive by construction, otherwise free. -/
def exp2_32 (x : Num32) : Num32 :=
  let k := x.units / (unitsOne : Int)
  let v := (toBinary32 (Config.exp2Free (exp2Index x))).units
  if k < -16 then ⟨max 1 (min v (pow2Units (-16)))⟩
  else if x.units = 16 * unitsOne then ⟨pow2Units 16⟩
  else if 16 ≤ k then ⟨max v (pow2Units 16)⟩
  else if x.units = k * unitsOne then ⟨pow2Units k⟩
  else ⟨max (pow2Units k) (min v (pow2Units (k + 1)))⟩

/-- TANPI (R15): 1 at 1/4, monotone and positive by construction, otherwise free. -/
def tanpi32 (r : Num32) : Num32 :=
  let v := (toBinary32 (Config.tanpiFree r.units.toNat)).units
  if r.units = 2 ^ 147 then ⟨2 ^ 149⟩
  else if r.units < 2 ^ 147 then ⟨max 1 (min v (2 ^ 149))⟩
  else ⟨max v (2 ^ 149)⟩

/-- NUM as binary32 with the parameters of R6. `count` is the number of the command being executed; only the free value of
an overflow depends on it. TWO_PI is the binary32 number 0x40C90FDB (R16). -/
def binary32 (count : Nat) : Config Num32 where
  zero := ⟨0⟩
  one := ⟨2 ^ 149⟩
  lit := lit32
  add := add32 count
  sub := sub32 count
  mul := mul32 count
  div := div32 count
  lt x y := decide (x.units < y.units)
  le x y := decide (x.units ≤ y.units)
  floor := floor32
  sin2pi := sin2pi32
  tanh := tanh32
  exp2 := exp2_32
  tanpi := tanpi32
  twoPi := ⟨0xC90FDB * 2 ^ 128⟩
  toConstants := defaultConstants lit32

/-! ### Bus encoding (R11, R23, R62) -/

/-- The exponent field, bits 30 to 23. -/
def expField (w : Word) : Nat := (w.extractLsb' 23 8).toNat

/-- The fraction field, bits 22 to 0. -/
def fracField (w : Word) : Nat := (w.extractLsb' 0 23).toNat

/-- A word denotes a finite number unless its exponent field is all ones (R11, R213). -/
def isFiniteWord (w : Word) : Bool := expField w != 255

/-- The magnitude a finite word denotes, in units. -/
def wordMag (w : Word) : Nat :=
  if expField w = 0 then fracField w else (2 ^ 23 + fracField w) * 2 ^ (expField w - 1)

/-- The number a bus word denotes; none for an infinity or a NaN. 0x80000000 denotes 0 (R11). -/
def numOfWord (w : Word) : Option Num32 :=
  if isFiniteWord w then some ⟨if w.getLsbD 31 then -(wordMag w : Int) else wordMag w⟩ else none

/-- The low 31 bits of the word of a binary32 magnitude. -/
def magWord (m : Nat) : Nat :=
  if m < 2 ^ 23 then m
  else (Nat.log2 m - 22) * 2 ^ 23 + (m / spacing m - 2 ^ 23)

/-- The bus word of a number; 0 is always the all-zero word (R11). -/
def wordOfNum (x : Num32) : Word :=
  BitVec.ofNat 32 ((if x.units < 0 then 2 ^ 31 else 0) + magWord x.units.natAbs)

/-- The default implementation of R6: binary32 on 32-bit buses with the default parameters. -/
def binary32Port (count : Nat) : PortConfig Num32 where
  toConfig := binary32 count
  encode := wordOfNum
  decode := numOfWord

end Sys2Proof.Machine
end

