-- ==== Sys2Proof/Machine/State.lean ====
section
/-! DEFINITION. The state: the REG space of R24 and R25 as named registers, and the command port at which the host presents
its commands (R80 to R83). -/

namespace Sys2Proof.Machine

/-! ### The registers (R20 to R25, R29). `α` is the carrier of NUM -/

/-- The stage of an envelope; 5, 6 and 7 cannot be represented (R29). -/
inductive Stage where
  | idle | attack | decay | sustain | release
  deriving DecidableEq, Repr

/-- An envelope instance (R29): three of them exist. -/
structure Env (α : Type) where
  stage : Stage
  t : α
  level : α
  rel0 : α
  deriving DecidableEq, Repr

/-- The four parameters an envelope takes from its owner (R114): `A_*` and `F_*`. -/
structure Adsr (α : Type) where
  attack : α
  decay : α
  sustain : α
  release : α
  deriving DecidableEq, Repr

/-- The parameter registers 0x08 to 0x0C. -/
structure LfoParams (α : Type) where
  en : BitVec 1
  freq : α
  depth : α
  wave : BitVec 3
  target : BitVec 4
  deriving DecidableEq, Repr

/-- The parameter registers 0x10 to 0x14, and 0x18 to 0x1C. -/
structure OscParams (α : Type) where
  wave : BitVec 3
  oct : α
  cents : α
  drive : α
  gain : α
  deriving DecidableEq, Repr

/-- The parameter registers 0x20 to 0x23. -/
structure NoiseParams (α : Type) where
  en : BitVec 1
  color : α
  dur : α
  gain : α
  deriving DecidableEq, Repr

/-- The parameter registers 0x28 to 0x30. -/
structure FltParams (α : Type) where
  en : BitVec 1
  ftype : BitVec 1
  cutoff : α
  res : α
  envAmt : α
  adsr : Adsr α
  deriving DecidableEq, Repr

/-- The 33 parameter registers (R24). -/
structure ParamRegs (α : Type) where
  fs : α
  lfo : LfoParams α
  o1 : OscParams α
  o2 : OscParams α
  noise : NoiseParams α
  flt : FltParams α
  amp : Adsr α
  deriving DecidableEq, Repr

/-- The state registers of one oscillator (R131). -/
structure OscState (α : Type) where
  phase : α
  base : α
  inc : α
  deriving DecidableEq, Repr

/-- The state registers of the noise generator other than ENV_N (R150). -/
structure NoiseState (α : Type) where
  rng : BitVec 32
  lp : α
  a : α
  dec : α
  dt : α
  deriving DecidableEq, Repr

/-- The state registers of the LFO (R171). -/
structure LfoState (α : Type) where
  phase : α
  inc : α
  deriving DecidableEq, Repr

/-- The integrators of the filter (R190). -/
structure FltState (α : Type) where
  s1 : α
  s2 : α
  deriving DecidableEq, Repr

/-- The REG space: 33 parameter registers and 27 state registers, and nothing else (R20). -/
structure Regs (α : Type) where
  par : ParamRegs α
  envA : Env α
  osc1 : OscState α
  osc2 : OscState α
  noise : NoiseState α
  envN : Env α
  lfo : LfoState α
  flt : FltState α
  envF : Env α
  deriving DecidableEq, Repr

/-! ### Names of the registers -/

/-- The parameter registers by name, in the order of R24. -/
inductive ParamReg where
  | fs
  | lfoEn | lfoFreq | lfoDepth | lfoWave | lfoTarget
  | o1Wave | o1Oct | o1Cents | o1Drive | o1Gain
  | o2Wave | o2Oct | o2Cents | o2Drive | o2Gain
  | nEn | nColor | nDur | nGain
  | fEn | fType | fCutoff | fRes | fEnvAmt | fAttack | fDecay | fSustain | fRelease
  | aAttack | aDecay | aSustain | aRelease
  deriving DecidableEq, Repr

/-- The state registers by name, in the order of R25. -/
inductive StateReg where
  | envAStage | envAT | envALevel | envARel0
  | osc1Phase | osc1Base | osc1Inc
  | osc2Phase | osc2Base | osc2Inc
  | noiseRng | noiseLp | noiseA | noiseDec | noiseDt
  | envNStage | envNT | envNLevel | envNRel0
  | lfoPhase | lfoInc
  | fltS1 | fltS2
  | envFStage | envFT | envFLevel | envFRel0
  deriving DecidableEq, Repr

/-- A register of the REG space: its parameter half or its state half (R23). -/
inductive RegName where
  | param (p : ParamReg)
  | state (q : StateReg)
  deriving DecidableEq, Repr

/-- What a register holds (R23): a number, or an unsigned integer, already extended to the bus. -/
inductive RegVal (α : Type) where
  | num (v : α)
  | int (v : Word)
  deriving DecidableEq, Repr

/-! ### The ports -/

/-- A command as the host presents it: the word and the two operand buses (R81, R82). -/
structure Command where
  word : Word
  a : Word
  b : Word
  deriving DecidableEq, Repr

/-- What the host can do to CORE (R80): present a command that is accepted, or hold `rst` at 1 over a clock edge (R230). -/
inductive PortEvent where
  | command (c : Command)
  | rst
  deriving DecidableEq, Repr

/-- A response (R82, R83): `rsp_err`, and `rsp_data` on a bus of `w` bits. -/
structure Response (w : Nat) where
  err : Bool
  data : BitVec w
  deriving DecidableEq, Repr

/-- The machine in the default implementation of R6: the registers, which are all the architectural state of R20, and the model's own fields for the
inputs and outputs of a step (log entries 1 and 3).
`cmdA`, `cmdB`: the operand buses as sampled with the command being executed (R81).
`rsp`: the response on the response port; none before the first one (R82, R230).
`queue`: what the host does next, oldest first.
`count`: how many commands have been accepted; free values alone depend on it. -/
structure State where
  regs : Regs Num32
  cmdA : Word
  cmdB : Word
  rsp : Option (Response 32)
  queue : List PortEvent
  count : Nat
  deriving DecidableEq, Repr

/-! ### How a step can stop -/

/-- Faults. There are none: CORE never hangs or halts, whatever the command and the values (R210, R215), so the type has no
constructor and nothing can raise one. -/
inductive Fault where
  deriving DecidableEq, Repr

/-- Refusals. -/
inductive Refusal where
  /-- Raised by `exec` alone, for a command that has no meaning in the model yet. Safe. No arm uses it. -/
  | notModelled (mnemonic : String)
  deriving DecidableEq, Repr

/-- The registers after reset (R33): zero, except FS and NOISE.rng, whose values are parameters. -/
def resetRegs {α : Type} (C : Config α) : Regs α where
  par :=
    { fs := C.fsReset
      lfo := ⟨0, C.zero, C.zero, 0, 0⟩
      o1 := ⟨0, C.zero, C.zero, C.zero, C.zero⟩
      o2 := ⟨0, C.zero, C.zero, C.zero, C.zero⟩
      noise := ⟨0, C.zero, C.zero, C.zero⟩
      flt := ⟨0, 0, C.zero, C.zero, C.zero, ⟨C.zero, C.zero, C.zero, C.zero⟩⟩
      amp := ⟨C.zero, C.zero, C.zero, C.zero⟩ }
  envA := ⟨.idle, C.zero, C.zero, C.zero⟩
  osc1 := ⟨C.zero, C.zero, C.zero⟩
  osc2 := ⟨C.zero, C.zero, C.zero⟩
  noise := ⟨C.rngSeed, C.zero, C.zero, C.zero, C.zero⟩
  envN := ⟨.idle, C.zero, C.zero, C.zero⟩
  lfo := ⟨C.zero, C.zero⟩
  flt := ⟨C.zero, C.zero⟩
  envF := ⟨.idle, C.zero, C.zero, C.zero⟩

/-- The machine after reset (R33, R230): no response, and nothing presented yet. The values of the model's own fields are
log entries 1 and 3. -/
def State.reset : State where
  regs := resetRegs (binary32 0)
  cmdA := 0
  cmdB := 0
  rsp := none
  queue := []
  count := 0

end Sys2Proof.Machine
end

