-- ==== Sys2Proof/Machine/Ops.lean ====
section
/-! DEFINITION. The shared operations: the register map (R24, R25, R28), reading and writing a register by name, the response
and the reject (R8, R210). -/

namespace Sys2Proof.Machine

/-! ### The register map -/

/-- The address of a parameter register (R24). -/
def paramAddr : ParamReg → Nat
  | .fs => 0x00
  | .lfoEn => 0x08
  | .lfoFreq => 0x09
  | .lfoDepth => 0x0A
  | .lfoWave => 0x0B
  | .lfoTarget => 0x0C
  | .o1Wave => 0x10
  | .o1Oct => 0x11
  | .o1Cents => 0x12
  | .o1Drive => 0x13
  | .o1Gain => 0x14
  | .o2Wave => 0x18
  | .o2Oct => 0x19
  | .o2Cents => 0x1A
  | .o2Drive => 0x1B
  | .o2Gain => 0x1C
  | .nEn => 0x20
  | .nColor => 0x21
  | .nDur => 0x22
  | .nGain => 0x23
  | .fEn => 0x28
  | .fType => 0x29
  | .fCutoff => 0x2A
  | .fRes => 0x2B
  | .fEnvAmt => 0x2C
  | .fAttack => 0x2D
  | .fDecay => 0x2E
  | .fSustain => 0x2F
  | .fRelease => 0x30
  | .aAttack => 0x38
  | .aDecay => 0x39
  | .aSustain => 0x3A
  | .aRelease => 0x3B

/-- The address of a state register (R25). -/
def stateAddr : StateReg → Nat
  | .envAStage => 0x80
  | .envAT => 0x81
  | .envALevel => 0x82
  | .envARel0 => 0x83
  | .osc1Phase => 0x88
  | .osc1Base => 0x89
  | .osc1Inc => 0x8A
  | .osc2Phase => 0x90
  | .osc2Base => 0x91
  | .osc2Inc => 0x92
  | .noiseRng => 0x98
  | .noiseLp => 0x99
  | .noiseA => 0x9A
  | .noiseDec => 0x9B
  | .noiseDt => 0x9C
  | .envNStage => 0xA0
  | .envNT => 0xA1
  | .envNLevel => 0xA2
  | .envNRel0 => 0xA3
  | .lfoPhase => 0xA8
  | .lfoInc => 0xA9
  | .fltS1 => 0xB0
  | .fltS2 => 0xB1
  | .envFStage => 0xB8
  | .envFT => 0xB9
  | .envFLevel => 0xBA
  | .envFRel0 => 0xBB

/-- The address of a register. -/
def regAddr : RegName → Nat
  | .param p => paramAddr p
  | .state q => stateAddr q

/-- All parameter registers, in the order of R24. -/
def allParams : List ParamReg :=
  [.fs, .lfoEn, .lfoFreq, .lfoDepth, .lfoWave, .lfoTarget,
   .o1Wave, .o1Oct, .o1Cents, .o1Drive, .o1Gain, .o2Wave, .o2Oct, .o2Cents, .o2Drive, .o2Gain,
   .nEn, .nColor, .nDur, .nGain,
   .fEn, .fType, .fCutoff, .fRes, .fEnvAmt, .fAttack, .fDecay, .fSustain, .fRelease,
   .aAttack, .aDecay, .aSustain, .aRelease]

/-- All state registers, in the order of R25. -/
def allStates : List StateReg :=
  [.envAStage, .envAT, .envALevel, .envARel0, .osc1Phase, .osc1Base, .osc1Inc, .osc2Phase, .osc2Base, .osc2Inc,
   .noiseRng, .noiseLp, .noiseA, .noiseDec, .noiseDt, .envNStage, .envNT, .envNLevel, .envNRel0,
   .lfoPhase, .lfoInc, .fltS1, .fltS2, .envFStage, .envFT, .envFLevel, .envFRel0]

/-- Every register of the REG space. -/
def allRegs : List RegName := allParams.map .param ++ allStates.map .state

/-- The register at an address; none where the address is unimplemented (R28). -/
def regAt? (addr : Nat) : Option RegName := allRegs.find? fun x => regAddr x == addr

/-! ### Reading and writing registers -/

/-- The code of a stage (R29). -/
def stageCode : Stage → Word
  | .idle => 0
  | .attack => 1
  | .decay => 2
  | .sustain => 3
  | .release => 4

/-- What a parameter register holds (R24). -/
def readParam {α : Type} (r : Regs α) : ParamReg → RegVal α
  | .fs => .num r.par.fs
  | .lfoEn => .int (r.par.lfo.en.setWidth 32)
  | .lfoFreq => .num r.par.lfo.freq
  | .lfoDepth => .num r.par.lfo.depth
  | .lfoWave => .int (r.par.lfo.wave.setWidth 32)
  | .lfoTarget => .int (r.par.lfo.target.setWidth 32)
  | .o1Wave => .int (r.par.o1.wave.setWidth 32)
  | .o1Oct => .num r.par.o1.oct
  | .o1Cents => .num r.par.o1.cents
  | .o1Drive => .num r.par.o1.drive
  | .o1Gain => .num r.par.o1.gain
  | .o2Wave => .int (r.par.o2.wave.setWidth 32)
  | .o2Oct => .num r.par.o2.oct
  | .o2Cents => .num r.par.o2.cents
  | .o2Drive => .num r.par.o2.drive
  | .o2Gain => .num r.par.o2.gain
  | .nEn => .int (r.par.noise.en.setWidth 32)
  | .nColor => .num r.par.noise.color
  | .nDur => .num r.par.noise.dur
  | .nGain => .num r.par.noise.gain
  | .fEn => .int (r.par.flt.en.setWidth 32)
  | .fType => .int (r.par.flt.ftype.setWidth 32)
  | .fCutoff => .num r.par.flt.cutoff
  | .fRes => .num r.par.flt.res
  | .fEnvAmt => .num r.par.flt.envAmt
  | .fAttack => .num r.par.flt.adsr.attack
  | .fDecay => .num r.par.flt.adsr.decay
  | .fSustain => .num r.par.flt.adsr.sustain
  | .fRelease => .num r.par.flt.adsr.release
  | .aAttack => .num r.par.amp.attack
  | .aDecay => .num r.par.amp.decay
  | .aSustain => .num r.par.amp.sustain
  | .aRelease => .num r.par.amp.release

/-- What a state register holds (R25). -/
def readState {α : Type} (r : Regs α) : StateReg → RegVal α
  | .envAStage => .int (stageCode r.envA.stage)
  | .envAT => .num r.envA.t
  | .envALevel => .num r.envA.level
  | .envARel0 => .num r.envA.rel0
  | .osc1Phase => .num r.osc1.phase
  | .osc1Base => .num r.osc1.base
  | .osc1Inc => .num r.osc1.inc
  | .osc2Phase => .num r.osc2.phase
  | .osc2Base => .num r.osc2.base
  | .osc2Inc => .num r.osc2.inc
  | .noiseRng => .int r.noise.rng
  | .noiseLp => .num r.noise.lp
  | .noiseA => .num r.noise.a
  | .noiseDec => .num r.noise.dec
  | .noiseDt => .num r.noise.dt
  | .envNStage => .int (stageCode r.envN.stage)
  | .envNT => .num r.envN.t
  | .envNLevel => .num r.envN.level
  | .envNRel0 => .num r.envN.rel0
  | .lfoPhase => .num r.lfo.phase
  | .lfoInc => .num r.lfo.inc
  | .fltS1 => .num r.flt.s1
  | .fltS2 => .num r.flt.s2
  | .envFStage => .int (stageCode r.envF.stage)
  | .envFT => .num r.envF.t
  | .envFLevel => .num r.envF.level
  | .envFRel0 => .num r.envF.rel0

/-- What a register holds. -/
def readReg {α : Type} (r : Regs α) : RegName → RegVal α
  | .param p => readParam r p
  | .state q => readState r q

/-- Whether a parameter register is numeric (R24, column "type"). -/
def paramIsNum : ParamReg → Bool
  | .lfoEn | .lfoWave | .lfoTarget | .o1Wave | .o2Wave | .nEn | .fEn | .fType => false
  | .fs | .lfoFreq | .lfoDepth | .o1Oct | .o1Cents | .o1Drive | .o1Gain | .o2Oct | .o2Cents | .o2Drive | .o2Gain => true
  | .nColor | .nDur | .nGain | .fCutoff | .fRes | .fEnvAmt | .fAttack | .fDecay | .fSustain | .fRelease => true
  | .aAttack | .aDecay | .aSustain | .aRelease => true

/-- The width of an integer parameter register (R24, "int k"); a numeric register is as wide as the bus. -/
def paramBits : ParamReg → Nat
  | .lfoEn | .nEn | .fEn | .fType => 1
  | .lfoWave | .o1Wave | .o2Wave => 3
  | .lfoTarget => 4
  | .fs | .lfoFreq | .lfoDepth | .o1Oct | .o1Cents | .o1Drive | .o1Gain | .o2Oct | .o2Cents | .o2Drive | .o2Gain => 32
  | .nColor | .nDur | .nGain | .fCutoff | .fRes | .fEnvAmt | .fAttack | .fDecay | .fSustain | .fRelease => 32
  | .aAttack | .aDecay | .aSustain | .aRelease => 32

/-- A numeric parameter register written; an integer register is not written this way. -/
def setNumParam {α : Type} (q : ParamRegs α) (p : ParamReg) (v : α) : ParamRegs α :=
  match p with
  | .fs => { q with fs := v }
  | .lfoFreq => { q with lfo := { q.lfo with freq := v } }
  | .lfoDepth => { q with lfo := { q.lfo with depth := v } }
  | .o1Oct => { q with o1 := { q.o1 with oct := v } }
  | .o1Cents => { q with o1 := { q.o1 with cents := v } }
  | .o1Drive => { q with o1 := { q.o1 with drive := v } }
  | .o1Gain => { q with o1 := { q.o1 with gain := v } }
  | .o2Oct => { q with o2 := { q.o2 with oct := v } }
  | .o2Cents => { q with o2 := { q.o2 with cents := v } }
  | .o2Drive => { q with o2 := { q.o2 with drive := v } }
  | .o2Gain => { q with o2 := { q.o2 with gain := v } }
  | .nColor => { q with noise := { q.noise with color := v } }
  | .nDur => { q with noise := { q.noise with dur := v } }
  | .nGain => { q with noise := { q.noise with gain := v } }
  | .fCutoff => { q with flt := { q.flt with cutoff := v } }
  | .fRes => { q with flt := { q.flt with res := v } }
  | .fEnvAmt => { q with flt := { q.flt with envAmt := v } }
  | .fAttack => { q with flt := { q.flt with adsr := { q.flt.adsr with attack := v } } }
  | .fDecay => { q with flt := { q.flt with adsr := { q.flt.adsr with decay := v } } }
  | .fSustain => { q with flt := { q.flt with adsr := { q.flt.adsr with sustain := v } } }
  | .fRelease => { q with flt := { q.flt with adsr := { q.flt.adsr with release := v } } }
  | .aAttack => { q with amp := { q.amp with attack := v } }
  | .aDecay => { q with amp := { q.amp with decay := v } }
  | .aSustain => { q with amp := { q.amp with sustain := v } }
  | .aRelease => { q with amp := { q.amp with release := v } }
  | .lfoEn | .lfoWave | .lfoTarget | .o1Wave | .o2Wave | .nEn | .fEn | .fType => q

/-- An integer parameter register of k bits written: bits `[k-1:0]` of the bus, the others dropped (R23, R26); a numeric
register is not written this way. -/
def setIntParam {α : Type} {n : Nat} (q : ParamRegs α) (p : ParamReg) (w : BitVec n) : ParamRegs α :=
  match p with
  | .lfoEn => { q with lfo := { q.lfo with en := w.setWidth 1 } }
  | .lfoWave => { q with lfo := { q.lfo with wave := w.setWidth 3 } }
  | .lfoTarget => { q with lfo := { q.lfo with target := w.setWidth 4 } }
  | .o1Wave => { q with o1 := { q.o1 with wave := w.setWidth 3 } }
  | .o2Wave => { q with o2 := { q.o2 with wave := w.setWidth 3 } }
  | .nEn => { q with noise := { q.noise with en := w.setWidth 1 } }
  | .fEn => { q with flt := { q.flt with en := w.setWidth 1 } }
  | .fType => { q with flt := { q.flt with ftype := w.setWidth 1 } }
  | .fs | .lfoFreq | .lfoDepth | .o1Oct | .o1Cents | .o1Drive | .o1Gain | .o2Oct | .o2Cents | .o2Drive | .o2Gain => q
  | .nColor | .nDur | .nGain | .fCutoff | .fRes | .fEnvAmt | .fAttack | .fDecay | .fSustain | .fRelease => q
  | .aAttack | .aDecay | .aSustain | .aRelease => q

/-- Writing a numeric parameter register (R101). -/
def writeNum {α : Type} (r : Regs α) (p : ParamReg) (v : α) : Regs α := { r with par := setNumParam r.par p v }

/-- Writing an integer parameter register (R101). -/
def writeInt {α : Type} {n : Nat} (r : Regs α) (p : ParamReg) (w : BitVec n) : Regs α := { r with par := setIntParam r.par p w }

/-- The state registers of the oscillator INST names (R87, R130). -/
def oscRegs {α : Type} (r : Regs α) : OscId → OscState α
  | .osc1 => r.osc1
  | .osc2 => r.osc2

/-- The parameter registers of the oscillator INST names (R87, R130). -/
def oscParams {α : Type} (r : Regs α) : OscId → OscParams α
  | .osc1 => r.par.o1
  | .osc2 => r.par.o2

/-- Writing the state registers of the oscillator INST names. -/
def setOscRegs {α : Type} (r : Regs α) (k : OscId) (o : OscState α) : Regs α :=
  match k with
  | .osc1 => { r with osc1 := o }
  | .osc2 => { r with osc2 := o }

/-- `FS_EFF = max(FS, FS_MIN)` (R27). -/
def fsEff {α : Type} (C : Config α) (r : Regs α) : α := numMax C r.par.fs C.fsMin

/-- `DT = 1 / FS_EFF` (R27). -/
def samplePeriod {α : Type} (C : Config α) (r : Regs α) : α := C.div C.one (fsEff C r)

/-! ### Completing a command -/

/-- What a command leaves: the registers, and the response on a bus of `w` bits (R82). -/
abbrev Completion (α : Type) (w : Nat) := Regs α × Response w

/-- What a value is on the response bus: a number encoded, an integer zero-extended (R23, R83). -/
def encodeVal {α : Type} (C : PortConfig α) : RegVal α → BitVec C.numW
  | .num v => C.encode v
  | .int w => w.setWidth C.numW

/-- The integer of a reject code (R211). -/
def rejectWord : RejectCode → Word
  | .illegalOp => 1
  | .reservedField => 2
  | .badAddr => 3
  | .roWrite => 4
  | .badOperand => 5

/-- `respond`: the command's register writes take effect together and the response carries the data (R8, R83). -/
def respond {α : Type} {w : Nat} (regs : Regs α) (data : BitVec w) : Completion α w := (regs, ⟨false, data⟩)

/-- `reject`: taking this hardware's one exception (R210), with the registers before the command. Every register keeps its
value, nothing is saved, no mode changes and no handler is entered; the response carries the code. There is no return
from it. -/
def reject {α : Type} {w : Nat} (code : RejectCode) (regs : Regs α) : Completion α w :=
  (regs, ⟨true, (rejectWord code).setWidth w⟩)

/-- Completing a command with new registers and a value. -/
def answer {α : Type} (C : PortConfig α) (res : Regs α × RegVal α) : Completion α C.numW :=
  respond res.1 (encodeVal C res.2)

/-! ### The machine, in the default implementation -/

/-- The configuration while a command of this state executes. -/
def State.port (s : State) : PortConfig Num32 := binary32Port s.count

/-- Its number system and parameters. -/
def State.config (s : State) : Config Num32 := binary32 s.count

/-- What a value is on the 32-bit response bus. -/
def wordOfVal (v : RegVal Num32) : Word := encodeVal (binary32Port 0) v

/-- The state a completed command leaves: the registers and the response port alone change. -/
def complete (s : State) (x : Completion Num32 32) : Host.Outcome State Fault Refusal :=
  .next { s with regs := x.1, rsp := some x.2 }

end Sys2Proof.Machine
end

