-- ==== Sys2Proof/Machine/Flags.lean ====
section
/-! DEFINITION. The computed predicates (R32): CORE has no condition codes; these are all it computes of the kind, and none is
stored. -/

namespace Sys2Proof.Machine

/-- `closed(E)` (R119). The comparison is strict. -/
def closed {α : Type} (C : Config α) (e : Env α) : Bool :=
  (e.stage == .release || e.stage == .idle) && C.lt e.level C.envEps

/-- Bit `i` of the router's answer (R176): the LFO is enabled and the target index matches; bits 0 to 3 also match the
combined index of their kind. -/
def routerBit (en : BitVec 1) (t : BitVec 4) (i : Nat) : Bool :=
  en == 1 &&
    match i with
    | 0 => t == 0 || t == 4
    | 1 => t == 1 || t == 5
    | 2 => t == 2 || t == 4
    | 3 => t == 3 || t == 5
    | 4 => t == 4
    | 5 => t == 5
    | 6 => t == 6
    | 7 => t == 7
    | 8 => t == 8
    | 9 => t == 9
    | _ => false

/-- `Q[9:0]` (R176). -/
def routerBits (en : BitVec 1) (t : BitVec 4) : BitVec 10 :=
  (List.range 10).foldl (fun acc i => if routerBit en t i then acc ||| (1 <<< i) else acc) 0

end Sys2Proof.Machine
end

