-- ==== Sys2Proof/Machine/Envelope.lean ====
section
/-! DEFINITION. The envelope generator (R110 to R119): its three functions, used by the noise generator and the filter too,
and the four commands on ENV_A. -/

namespace Sys2Proof.Machine

/-- `env_on(E)` (R111): from every stage. -/
def envOn {α : Type} (C : Config α) : Env α := ⟨.attack, C.zero, C.zero, C.zero⟩

/-- `env_off(E)` (R113): from every stage; the level is kept, and remembered as the start of the release ramp. -/
def envOff {α : Type} (C : Config α) (e : Env α) : Env α :=
  { e with rel0 := e.level, stage := .release, t := C.zero }

/-- A time as `env_next` uses it: floored at T_MIN (R112). -/
def flooredTime {α : Type} (C : Config α) (x : α) : α := numMax C x C.tMin

/-- `env_next(E, att, dec, sus, rel, dt)` (R112). The value it returns is the level of the new record. -/
def envNext {α : Type} (C : Config α) (e : Env α) (p : Adsr α) (dt : α) : Env α :=
  match e.stage with
  | .idle => { e with level := C.zero }
  | .attack =>
    let att := flooredTime C p.attack
    let t := C.add e.t dt
    if C.le att t then { e with level := C.one, stage := .decay, t := C.zero }
    else { e with level := C.div t att, t := t }
  | .decay =>
    let dec := flooredTime C p.decay
    let t := C.add e.t dt
    if C.le dec t then { e with level := p.sustain, stage := .sustain, t := C.zero }
    else { e with level := C.sub C.one (C.mul (C.sub C.one p.sustain) (C.div t dec)), t := t }
  | .sustain => { e with level := p.sustain }
  | .release =>
    let rel := flooredTime C p.release
    let t := C.add e.t dt
    if C.le rel t then { e with level := C.zero, stage := .idle, t := C.zero }
    else { e with level := C.mul e.rel0 (C.sub C.one (C.div t rel)), t := t }

/-- ENV.ON on the registers (R115). -/
def envOnRegs {α : Type} (C : Config α) (r : Regs α) : Regs α × RegVal α :=
  ({ r with envA := envOn C }, .int 0)

/-- ENV.OFF on the registers (R116). -/
def envOffRegs {α : Type} (C : Config α) (r : Regs α) : Regs α × RegVal α :=
  ({ r with envA := envOff C r.envA }, .int 0)

/-- ENV.NEXT on the registers (R114, R117): the `A_*` parameters and the sample period are read live. -/
def envNextRegs {α : Type} (C : Config α) (r : Regs α) : Regs α × RegVal α :=
  let e := envNext C r.envA r.par.amp (samplePeriod C r)
  ({ r with envA := e }, .num e.level)

/-- ENV.CLOSED on the registers (R118). -/
def envClosedRegs {α : Type} (C : Config α) (r : Regs α) : Regs α × RegVal α :=
  (r, .int (if closed C r.envA then 1 else 0))

/-- ENV.ON (R115). -/
def execEnvOn (s : State) : Host.Outcome State Fault Refusal := complete s (answer s.port (envOnRegs s.config s.regs))

/-- ENV.OFF (R116). -/
def execEnvOff (s : State) : Host.Outcome State Fault Refusal := complete s (answer s.port (envOffRegs s.config s.regs))

/-- ENV.NEXT (R117). -/
def execEnvNext (s : State) : Host.Outcome State Fault Refusal := complete s (answer s.port (envNextRegs s.config s.regs))

/-- ENV.CLOSED (R118). -/
def execEnvClosed (s : State) : Host.Outcome State Fault Refusal := complete s (answer s.port (envClosedRegs s.config s.regs))

end Sys2Proof.Machine
end

