-- ==== Sys2Proof/Machine/Operands.lean ====
section
/-! DEFINITION. The numeric operands (R81, R213). -/

namespace Sys2Proof.Machine

/-- A command that uses a bus as a numeric operand: a word that denotes no finite number is rejected with code 5, any other
one is the operand (R11, R213). A bus a command does not use, or uses raw, does not come here. -/
def withOperand {α : Type} (C : PortConfig α) (bus : BitVec C.numW) (regs : Regs α) (run : α → Completion α C.numW) :
    Completion α C.numW :=
  match C.decode bus with
  | none => reject .badOperand regs
  | some v => run v

end Sys2Proof.Machine
end

