-- ==== Sys2Proof/Machine/Filter.lean ====
section
/-! DEFINITION. The filter (R190 to R195). -/

namespace Sys2Proof.Machine

/-- FLT.START on the registers (R191). -/
def fltStartRegs {α : Type} (C : Config α) (r : Regs α) : Regs α × RegVal α :=
  ({ r with envF := envOn C, flt := ⟨C.zero, C.zero⟩ }, .int 0)

/-- FLT.STOP on the registers (R192). -/
def fltStopRegs {α : Type} (C : Config α) (r : Regs α) : Regs α × RegVal α :=
  ({ r with envF := envOff C r.envF }, .int 0)

/-- The clamped cutoff of R193, from the envelope level `e` and the LFO sample. -/
def fltCutoff {α : Type} (C : Config α) (r : Regs α) (tf : Bool) (e lfo : α) : α :=
  let fc := C.add r.par.flt.cutoff (C.mul e r.par.flt.envAmt)
  numClamp C (if tf then C.add fc (C.mul lfo C.kFltFreq) else fc) C.fcMin (numMin C C.fcMax (C.mul C.fcFrac (fsEff C r)))

/-- The clamped resonance of R193. -/
def fltRes {α : Type} (C : Config α) (r : Regs α) (tq : Bool) (lfo : α) : α :=
  numClamp C (if tq then C.add r.par.flt.res (C.mul lfo C.kFltQ) else r.par.flt.res) C.qMin C.qMax

/-- The divisor of the `h` of R193. -/
def fltDenom {α : Type} (C : Config α) (g r2 : α) : α := C.add (C.add C.one (C.mul r2 g)) (C.mul g g)

/-- The two integrators and the low-pass and high-pass outputs of one sample of R193, for coefficients `g` and `R2`. -/
def svfStep {α : Type} (C : Config α) (g r2 x : α) (f : FltState α) : FltState α × α × α :=
  let h := C.div C.one (fltDenom C g r2)
  let yHP := C.mul h (C.sub (C.sub x (C.mul f.s1 (C.add g r2))) f.s2)
  let yBP := C.add (C.mul yHP g) f.s1
  let yLP := C.add (C.mul yBP g) f.s2
  (⟨C.add (C.mul yHP g) yBP, C.add (C.mul yBP g) yLP⟩, yLP, yHP)

/-- FLT.APPLY on the registers (R193, R194): with `F_EN = 0` the sample passes and nothing advances. -/
def fltApplyRegs {α : Type} (C : Config α) (tf tq : Bool) (x lfo : α) (r : Regs α) : Regs α × RegVal α :=
  if r.par.flt.en = 0 then (r, .num x)
  else
    let e := envNext C r.envF r.par.flt.adsr (samplePeriod C r)
    let g := C.tanpi (C.div (fltCutoff C r tf e.level lfo) (fsEff C r))
    let r2 := C.div C.one (fltRes C r tq lfo)
    let out := svfStep C g r2 x r.flt
    ({ r with envF := e, flt := out.1 }, .num (if r.par.flt.ftype = 0 then out.2.1 else out.2.2))

/-- FLT.APPLY with its operands (R193). Both must be finite, also in bypass; the bypass answers with the very bits of bus `A`
(R194). -/
def fltApplyCommand {α : Type} (C : PortConfig α) (tf tq : Bool) (a b : BitVec C.numW) (r : Regs α) : Completion α C.numW :=
  withOperand C a r fun x =>
    withOperand C b r fun lfo =>
      if r.par.flt.en = 0 then respond r a else answer C (fltApplyRegs C.toConfig tf tq x lfo r)

/-- FLT.START (R191). -/
def execFltStart (s : State) : Host.Outcome State Fault Refusal := complete s (answer s.port (fltStartRegs s.config s.regs))

/-- FLT.STOP (R192). -/
def execFltStop (s : State) : Host.Outcome State Fault Refusal := complete s (answer s.port (fltStopRegs s.config s.regs))

/-- FLT.APPLY (R193). -/
def execFltApply (tf tq : Bool) (s : State) : Host.Outcome State Fault Refusal :=
  complete s (fltApplyCommand s.port tf tq s.cmdA s.cmdB s.regs)

end Sys2Proof.Machine
end

