-- ==== Sys2Proof/Machine/Oscillator.lean ====
section
/-! DEFINITION. The oscillators (R130 to R142). -/

namespace Sys2Proof.Machine

/-! ### Waveforms, shared with the LFO where R174 says so -/

/-- Triangle (R136). -/
def triangle {α : Type} (C : Config α) (p : α) : α :=
  if C.lt p (C.lit 1 4) then C.mul (C.lit 4 1) p
  else if C.lt p (C.lit 3 4) then C.sub (C.lit 2 1) (C.mul (C.lit 4 1) p)
  else C.sub (C.mul (C.lit 4 1) p) (C.lit 4 1)

/-- Square (R137). -/
def square {α : Type} (C : Config α) (p : α) : α :=
  if C.lt p (C.lit 1 2) then C.one else C.lit (-1) 1

/-- Rising sawtooth (R138). -/
def risingSaw {α : Type} (C : Config α) (p : α) : α := C.sub (C.mul (C.lit 2 1) p) C.one

/-- Push (R139): the drive is clamped at 0 from below. -/
def pushWave {α : Type} (C : Config α) (p drive : α) : α :=
  C.tanh (C.mul (numMax C drive C.zero) (C.sin2pi p))

/-- The correction `c` of the higher-quality sawtooth (R140). -/
def sawCorrection {α : Type} (C : Config α) (p inc : α) : α :=
  if C.lt C.zero inc && C.lt inc (C.lit 1 2) then
    if C.lt p inc then
      let x := C.div p inc
      C.sub (C.sub (C.add x x) (C.mul x x)) C.one
    else if C.lt (C.sub C.one inc) p then
      let x := C.div (C.sub p C.one) inc
      C.add (C.add (C.mul x x) (C.add x x)) C.one
    else C.zero
  else C.zero

/-- Higher-quality sawtooth (R140). -/
def smoothSaw {α : Type} (C : Config α) (p inc : α) : α :=
  C.sub (risingSaw C p) (sawCorrection C p inc)

/-- `wave(sel, p, inc, drive)` (R135 to R141). -/
def wave {α : Type} (C : Config α) (sel : BitVec 3) (p inc drive : α) : α :=
  match sel.toNat with
  | 0 => C.sin2pi p
  | 1 => triangle C p
  | 2 => square C p
  | 3 => risingSaw C p
  | 4 => pushWave C p drive
  | 5 => smoothSaw C p inc
  | _ => C.zero

/-! ### The commands on the registers -/

/-- OSC.START (R132): the increment is not changed. -/
def oscStartRegs {α : Type} (C : Config α) (k : OscId) (freq : α) (r : Regs α) : Regs α × RegVal α :=
  (setOscRegs r k { oscRegs r k with base := freq, phase := C.phase0 }, .int 0)

/-- The effective frequency of R133, in the order the rule's parentheses give. -/
def oscFreq {α : Type} (C : Config α) (p : OscParams α) (base lfo : α) (tf tc : Bool) : α :=
  let cents := if tc then C.add p.cents (C.mul lfo C.kOscCents) else p.cents
  let f := C.mul (C.mul base (C.exp2 p.oct)) (C.exp2 (C.div cents C.centsPerOctave))
  numMax C (if tf then C.add f (C.mul lfo C.kOscFreq) else f) C.zero

/-- OSC.UPD (R133). -/
def oscUpdRegs {α : Type} (C : Config α) (k : OscId) (tf tc : Bool) (lfo : α) (r : Regs α) : Regs α × RegVal α :=
  let f := oscFreq C (oscParams r k) (oscRegs r k).base lfo tf tc
  (setOscRegs r k { oscRegs r k with inc := C.div f (fsEff C r) }, .int 0)

/-- OSC.NEXT (R134): the waveform is taken at the phase after the advance. -/
def oscNextRegs {α : Type} (C : Config α) (k : OscId) (r : Regs α) : Regs α × RegVal α :=
  let o := oscRegs r k
  let q := oscParams r k
  let p := numFrac C (C.add o.phase o.inc)
  (setOscRegs r k { o with phase := p }, .num (C.mul (wave C q.wave p o.inc q.drive) q.gain))

/-! ### The commands on the port -/

/-- OSC.START with its operand (R132). -/
def oscStartCommand {α : Type} (C : PortConfig α) (k : OscId) (a : BitVec C.numW) (r : Regs α) : Completion α C.numW :=
  withOperand C a r fun freq => answer C (oscStartRegs C.toConfig k freq r)

/-- OSC.UPD with its operand (R133): `A` must be finite even when no flag uses it. -/
def oscUpdCommand {α : Type} (C : PortConfig α) (k : OscId) (tf tc : Bool) (a : BitVec C.numW) (r : Regs α) :
    Completion α C.numW :=
  withOperand C a r fun lfo => answer C (oscUpdRegs C.toConfig k tf tc lfo r)

/-- OSC.START (R132). -/
def execOscStart (k : OscId) (s : State) : Host.Outcome State Fault Refusal :=
  complete s (oscStartCommand s.port k s.cmdA s.regs)

/-- OSC.UPD (R133). -/
def execOscUpd (k : OscId) (tf tc : Bool) (s : State) : Host.Outcome State Fault Refusal :=
  complete s (oscUpdCommand s.port k tf tc s.cmdA s.regs)

/-- OSC.NEXT (R134). -/
def execOscNext (k : OscId) (s : State) : Host.Outcome State Fault Refusal :=
  complete s (answer s.port (oscNextRegs s.config k s.regs))

end Sys2Proof.Machine
end

