-- ==== Sys2Proof/Machine/Lfo.lean ====
section
/-! DEFINITION. The LFO and the router (R170 to R178). -/

namespace Sys2Proof.Machine

/-- `lfowave(sel, p)` (R174). -/
def lfoWave {α : Type} (C : Config α) (sel : BitVec 3) (p : α) : α :=
  match sel.toNat with
  | 0 => C.sin2pi p
  | 1 => triangle C p
  | 2 => square C p
  | 3 => risingSaw C p
  | 4 => C.sub C.one (C.mul (C.lit 2 1) p)
  | _ => C.zero

/-- LFO.UPD on the registers (R172). -/
def lfoUpdRegs {α : Type} (C : Config α) (r : Regs α) : Regs α × RegVal α :=
  ({ r with lfo := { r.lfo with inc := C.div (numMax C r.par.lfo.freq C.zero) (fsEff C r) } }, .int 0)

/-- LFO.NEXT on the registers (R173): `LFO_EN` is not read. -/
def lfoNextRegs {α : Type} (C : Config α) (r : Regs α) : Regs α × RegVal α :=
  let p := numFrac C (C.add r.lfo.phase r.lfo.inc)
  ({ r with lfo := { r.lfo with phase := p } }, .num (C.mul (lfoWave C r.par.lfo.wave p) r.par.lfo.depth))

/-- LFO.QRY on the registers (R176). -/
def lfoQryRegs {α : Type} (r : Regs α) : Regs α × RegVal α :=
  (r, .int ((routerBits r.par.lfo.en r.par.lfo.target).setWidth 32))

/-- LFO.UPD (R172). -/
def execLfoUpd (s : State) : Host.Outcome State Fault Refusal := complete s (answer s.port (lfoUpdRegs s.config s.regs))

/-- LFO.NEXT (R173). -/
def execLfoNext (s : State) : Host.Outcome State Fault Refusal := complete s (answer s.port (lfoNextRegs s.config s.regs))

/-- LFO.QRY (R176). -/
def execLfoQry (s : State) : Host.Outcome State Fault Refusal := complete s (answer s.port (lfoQryRegs s.regs))

end Sys2Proof.Machine
end

