-- ==== Sys2Proof/Machine/Noise.lean ====
section
/-! DEFINITION. The noise generator (R150 to R156). -/

namespace Sys2Proof.Machine

/-- `rng_step` (R154, R17). -/
def rngStep (x : BitVec 32) : BitVec 32 :=
  let x1 := x ^^^ (x <<< 13)
  let x2 := x1 ^^^ (x1 >>> 17)
  x2 ^^^ (x2 <<< 5)

/-- `rng_value` (R154): the upper 24 bits, onto -1 to 1 - 2^-23. -/
def rngValue {α : Type} (C : Config α) (x : BitVec 32) : α :=
  C.lit (((x >>> 8).toNat : Int) - 2 ^ 23) (2 ^ 23)

/-- NOISE.START on the registers (R151): `NOISE.rng` is not reseeded. -/
def noiseStartRegs {α : Type} (C : Config α) (r : Regs α) : Regs α × RegVal α :=
  ({ r with noise := { r.noise with lp := C.zero }, envN := envOn C }, .int 0)

/-- NOISE.STOP on the registers (R152). -/
def noiseStopRegs {α : Type} (C : Config α) (r : Regs α) : Regs α × RegVal α :=
  ({ r with envN := envOff C r.envN }, .int 0)

/-- The `w` of R153. -/
def noiseOmega {α : Type} (C : Config α) (r : Regs α) : α :=
  C.div (C.mul C.twoPi (C.add C.nFcMin (C.mul r.par.noise.color C.nFcSpan))) (fsEff C r)

/-- NOISE.UPD on the registers (R153). -/
def noiseUpdRegs {α : Type} (C : Config α) (r : Regs α) : Regs α × RegVal α :=
  let w := noiseOmega C r
  let n :=
    { r.noise with
      a := C.div w (C.add C.one w)
      dec := if C.le C.nDurMax r.par.noise.dur then C.nDecHeld else r.par.noise.dur
      dt := C.div C.one (fsEff C r) }
  ({ r with noise := n }, .int 0)

/-- The times and the level ENV_N runs on (R114). -/
def noiseAdsr {α : Type} (C : Config α) (dec : α) : Adsr α := ⟨C.nAttack, dec, C.zero, C.nRelease⟩

/-- NOISE.NEXT on the registers (R155): nothing advances while `N_EN` is 0. -/
def noiseNextRegs {α : Type} (C : Config α) (r : Regs α) : Regs α × RegVal α :=
  if r.par.noise.en = 0 then (r, .num C.zero)
  else
    let n := r.noise
    let rng := rngStep n.rng
    let lp := C.add n.lp (C.mul n.a (C.sub (rngValue C rng) n.lp))
    let e := envNext C r.envN (noiseAdsr C n.dec) n.dt
    ({ r with noise := { n with rng := rng, lp := lp }, envN := e }, .num (C.mul (C.mul lp e.level) r.par.noise.gain))

/-- NOISE.START (R151). -/
def execNoiseStart (s : State) : Host.Outcome State Fault Refusal := complete s (answer s.port (noiseStartRegs s.config s.regs))

/-- NOISE.STOP (R152). -/
def execNoiseStop (s : State) : Host.Outcome State Fault Refusal := complete s (answer s.port (noiseStopRegs s.config s.regs))

/-- NOISE.UPD (R153). -/
def execNoiseUpd (s : State) : Host.Outcome State Fault Refusal := complete s (answer s.port (noiseUpdRegs s.config s.regs))

/-- NOISE.NEXT (R155). -/
def execNoiseNext (s : State) : Host.Outcome State Fault Refusal := complete s (answer s.port (noiseNextRegs s.config s.regs))

end Sys2Proof.Machine
end

