-- ==== Sys2Proof/Machine/Sys.lean ====
section
/-! DEFINITION. The system commands NOP, WRR, RDR (R100 to R103). -/

namespace Sys2Proof.Machine

/-- NOP (R100). -/
def nopCommand {α : Type} (C : PortConfig α) (r : Regs α) : Completion α C.numW := respond r 0

/-- WRR (R101): the rejects in the order of the rule, then the one register written. An integer register takes the raw word. -/
def wrrCommand {α : Type} (C : PortConfig α) (addr : Nat) (a : BitVec C.numW) (r : Regs α) : Completion α C.numW :=
  match regAt? addr with
  | none => reject .badAddr r
  | some (.state _) => reject .roWrite r
  | some (.param p) =>
    if paramIsNum p then withOperand C a r fun v => respond (writeNum r p v) 0
    else respond (writeInt r p a) 0

/-- RDR (R102). -/
def rdrCommand {α : Type} (C : PortConfig α) (addr : Nat) (r : Regs α) : Completion α C.numW :=
  match regAt? addr with
  | none => reject .badAddr r
  | some x => respond r (encodeVal C (readReg r x))

/-- NOP (R100). -/
def execNop (s : State) : Host.Outcome State Fault Refusal := complete s (nopCommand s.port s.regs)

/-- WRR (R101). -/
def execWrr (addr : Nat) (s : State) : Host.Outcome State Fault Refusal :=
  complete s (wrrCommand s.port addr s.cmdA s.regs)

/-- RDR (R102). -/
def execRdr (addr : Nat) (s : State) : Host.Outcome State Fault Refusal := complete s (rdrCommand s.port addr s.regs)

end Sys2Proof.Machine
end

