-- ==== Sys2Proof/Machine/Dispatch.lean ====
section
/-! DEFINITION. One arm per command (R86). -/

namespace Sys2Proof.Machine

def exec (i : Instr) (s : State) : Host.Outcome State Fault Refusal :=
  match i with
  | .nop => Sys2Proof.Machine.execNop s
  | .wrr addr => Sys2Proof.Machine.execWrr addr s
  | .rdr addr => Sys2Proof.Machine.execRdr addr s
  | .envOn => Sys2Proof.Machine.execEnvOn s
  | .envOff => Sys2Proof.Machine.execEnvOff s
  | .envNext => Sys2Proof.Machine.execEnvNext s
  | .envClosed => Sys2Proof.Machine.execEnvClosed s
  | .oscStart k => Sys2Proof.Machine.execOscStart k s
  | .oscUpd k tf tc => Sys2Proof.Machine.execOscUpd k tf tc s
  | .oscNext k => Sys2Proof.Machine.execOscNext k s
  | .noiseStart => Sys2Proof.Machine.execNoiseStart s
  | .noiseStop => Sys2Proof.Machine.execNoiseStop s
  | .noiseUpd => Sys2Proof.Machine.execNoiseUpd s
  | .noiseNext => Sys2Proof.Machine.execNoiseNext s
  | .lfoUpd => Sys2Proof.Machine.execLfoUpd s
  | .lfoNext => Sys2Proof.Machine.execLfoNext s
  | .lfoQry => Sys2Proof.Machine.execLfoQry s
  | .fltStart => Sys2Proof.Machine.execFltStart s
  | .fltStop => Sys2Proof.Machine.execFltStop s
  | .fltApply tf tq => Sys2Proof.Machine.execFltApply tf tq s

end Sys2Proof.Machine
end

