-- ==== Sys2Proof/Machine/Execute.lean ====
section
/-! DEFINITION. Executing an accepted word (R90). -/

namespace Sys2Proof.Machine

/-- Decode, then the command's own rule; a word that is no command is rejected with the decoder's code (R88 to R90). -/
def execWord (w : Word) (s : State) : Host.Outcome State Fault Refusal :=
  match decode w with
  | .error code => complete s (reject code s.regs)
  | .ok i => exec i s

end Sys2Proof.Machine
end

