-- ==== Sys2Proof/Machine/Port.lean ====
section
/-! DEFINITION. The command port: accepting a command and the reset edge (R80 to R82, R230). -/

namespace Sys2Proof.Machine

/-- Accepting a command: the operand buses are sampled, the response to the command before it is gone from the port, and the
command gets its number (R81, R82; log entries 1 and 3). -/
def accept (c : Command) (rest : List PortEvent) (s : State) : State :=
  { s with cmdA := c.a, cmdB := c.b, rsp := none, queue := rest, count := s.count + 1 }

/-- A clock edge with `rst = 1` (R230): every register takes its reset value and no response is pending. What the host does
next is not changed by it, and free values stay fresh (log entry 3). -/
def resetEdge (rest : List PortEvent) (s : State) : State :=
  { State.reset with queue := rest, count := s.count }

end Sys2Proof.Machine
end

