-- ==== Sys2Proof/Machine/Step.lean ====
section
/-! DEFINITION. One step: the next thing the host does at the ports (R9, R65, R82, R230). -/

namespace Sys2Proof.Machine

/-- One step. A presented command is accepted, executed and answered in one atomic step (R9, R82); a reset edge resets (R230);
with nothing presented CORE stays idle and keeps its state (R221). -/
def step (s : State) : Host.Outcome State Fault Refusal :=
  match s.queue with
  | [] => .next s
  | .rst :: rest => .next (resetEdge rest s)
  | .command c :: rest => execWord c.word (accept c rest s)

/-- The state in which the next command accepted is the given word, presented before anything else; the operand buses carry
what they carry (log entry 2). -/
def State.withFetchWord (s : State) (nbits w : Nat) : State :=
  { s with queue := .command ⟨BitVec.ofNat 32 (w % 2 ^ nbits), s.cmdA, s.cmdB⟩ :: s.queue }

end Sys2Proof.Machine
end

