-- ==== Sys2Proof/Machine/Pseudo.lean ====
section
/-! DEFINITION. The pseudo-instructions (R93): host-side sequences of commands. CORE knows none of them. -/

namespace Sys2Proof.Machine

/-- A command presented with operands; a bus that is not given carries 0. -/
def present (i : Instr) (a : Word := 0) (b : Word := 0) : PortEvent := .command ⟨encode i, a, b⟩

/-- `PREPARE <fs>`. -/
def prepare (fs : Word) : List PortEvent :=
  [present (.wrr (paramAddr .fs)) fs, present .lfoUpd, present .noiseUpd]

/-- `NOTEON <f>`. -/
def noteOn (f : Word) : List PortEvent :=
  [present (.oscStart .osc1) f, present (.oscStart .osc2) f, present .noiseStart, present .fltStart, present .envOn]

/-- `NOTEOFF`. -/
def noteOff : List PortEvent := [present .noiseStop, present .fltStop, present .envOff]

/-- `BLOCKUPD`. -/
def blockUpd : List PortEvent := [present .noiseUpd]

/-- The host presents one event now, ahead of anything else, and waits for its end. -/
def issue (e : PortEvent) (s : State) : State :=
  match step { s with queue := e :: s.queue } with
  | .next t => t
  | .fault _ => s
  | .refused _ => s

/-- The data of the response the host has just received. -/
def rspData (s : State) : Word :=
  match s.rsp with
  | some x => x.data
  | none => 0

/-- What the host keeps of one `TICK`. -/
structure TickResult where
  y : Word
  e : Word
  c : Word
  l : Word
  q : Word
  deriving DecidableEq, Repr

/-- A bus word as the host reads it when it computes in NUM. -/
def hostNum (w : Word) : Num32 := (numOfWord w).getD ⟨0⟩

/-- `TICK -> y, e, c, l, q`: the commands of R93 in their order; the host computes `x = (s1 + s2) + n` in NUM. -/
def tick (s : State) : State × TickResult :=
  let s1 := issue (present .lfoUpd) s
  let s2 := issue (present .lfoNext) s1
  let l := rspData s2
  let s3 := issue (present .lfoQry) s2
  let q := rspData s3
  let s4 := issue (present (.oscUpd .osc1 (q.getLsbD 0) (q.getLsbD 1)) l) s3
  let s5 := issue (present (.oscUpd .osc2 (q.getLsbD 2) (q.getLsbD 3)) l) s4
  let s6 := issue (present (.oscNext .osc1)) s5
  let s7 := issue (present (.oscNext .osc2)) s6
  let s8 := issue (present .noiseNext) s7
  let C := s8.config
  let x := C.add (C.add (hostNum (rspData s6)) (hostNum (rspData s7))) (hostNum (rspData s8))
  let s9 := issue (present (.fltApply (q.getLsbD 6) (q.getLsbD 7)) (wordOfNum x) l) s8
  let s10 := issue (present .envNext) s9
  let s11 := issue (present .envClosed) s10
  (s11, ⟨rspData s9, rspData s10, rspData s11, l, q⟩)

end Sys2Proof.Machine
end

