-- ==== Sys2Proof/Machine/Block.lean ====
section
/-! DEFINITION. CORE with its configuration as an argument (R6): one command of a CORE of any NUM, NUM_W and parameters, from the
command word and the two operand buses to the registers and the response, which is all a command is (R82). The machine
(`exec`, `step`) is this at `binary32Port`. -/

namespace Sys2Proof.Machine

/-- One decoded command, with its operand buses. -/
def runCommand {α : Type} (C : PortConfig α) (i : Instr) (a b : BitVec C.numW) (r : Regs α) : Completion α C.numW :=
  match i with
  | .nop => nopCommand C r
  | .wrr addr => wrrCommand C addr a r
  | .rdr addr => rdrCommand C addr r
  | .envOn => answer C (envOnRegs C.toConfig r)
  | .envOff => answer C (envOffRegs C.toConfig r)
  | .envNext => answer C (envNextRegs C.toConfig r)
  | .envClosed => answer C (envClosedRegs C.toConfig r)
  | .oscStart k => oscStartCommand C k a r
  | .oscUpd k tf tc => oscUpdCommand C k tf tc a r
  | .oscNext k => answer C (oscNextRegs C.toConfig k r)
  | .noiseStart => answer C (noiseStartRegs C.toConfig r)
  | .noiseStop => answer C (noiseStopRegs C.toConfig r)
  | .noiseUpd => answer C (noiseUpdRegs C.toConfig r)
  | .noiseNext => answer C (noiseNextRegs C.toConfig r)
  | .lfoUpd => answer C (lfoUpdRegs C.toConfig r)
  | .lfoNext => answer C (lfoNextRegs C.toConfig r)
  | .lfoQry => answer C (lfoQryRegs r)
  | .fltStart => answer C (fltStartRegs C.toConfig r)
  | .fltStop => answer C (fltStopRegs C.toConfig r)
  | .fltApply tf tq => fltApplyCommand C tf tq a b r

/-- One accepted word: `(state, cmd_word, A, B) -> (state', rsp_err, rsp_data)` (R82, R90). -/
def block {α : Type} (C : PortConfig α) (w : Word) (a b : BitVec C.numW) (r : Regs α) : Completion α C.numW :=
  match decode w with
  | .error code => reject code r
  | .ok i => runCommand C i a b r

end Sys2Proof.Machine
end

