-- ==== Sys2Proof/Machine/Reference.lean ====
section
/-! DEFINITION. The reference instantiation of NUM: the real numbers, every operation exact (R10, R12 to R16). The machine
does not run it; claims about what the rules give in exact arithmetic are stated over it. -/

namespace Sys2Proof.Machine

/-- NUM as the real numbers with the parameters of R6. Division by zero is the free value of log entry 4. -/
noncomputable def reference : Config ℝ where
  zero := 0
  one := 1
  lit n d := (n : ℝ) / (d : ℝ)
  add x y := x + y
  sub x y := x - y
  mul x y := x * y
  div x y := if y = 0 then Config.refDivZeroFree x else x / y
  lt x y := decide (x < y)
  le x y := decide (x ≤ y)
  floor x := (⌊x⌋ : ℝ)
  sin2pi p := Real.sin (2 * Real.pi * p)
  tanh x := Real.tanh x
  exp2 x := (2 : ℝ) ^ x
  tanpi r := Real.tan (Real.pi * r)
  twoPi := 2 * Real.pi
  toConstants := defaultConstants fun n d => (n : ℝ) / (d : ℝ)

end Sys2Proof.Machine
end

