-- ==== Sys2Proof/Machine/Value.lean ====
section
/-! DEFINITION. The commands at the level of NUM values, for any NUM (R8, R10): registers and operands in, registers and value
out, with no bus encoding. `exec` is this over binary32 with the buses around it (Machine/Block.lean has the buses of any NUM);
over `reference` it is the block in exact arithmetic. -/

namespace Sys2Proof.Machine

/-- The operands of a command as values (R81): `A`, `B`, and `A` as a raw integer for `WRR` to an integer register. -/
structure Operands (α : Type) where
  a : α
  b : α
  raw : Word
  deriving DecidableEq, Repr

/-- Registers without an effect or with one, and the value or the reject code (R8). -/
abbrev Result (α : Type) := Regs α × Except RejectCode (RegVal α)

/-- A result that is no reject. -/
def done {α : Type} (x : Regs α × RegVal α) : Result α := (x.1, .ok x.2)

/-- WRR on values (R101). -/
def wrrRegs {α : Type} (addr : Nat) (o : Operands α) (r : Regs α) : Result α :=
  match regAt? addr with
  | none => (r, .error .badAddr)
  | some (.state _) => (r, .error .roWrite)
  | some (.param p) => (if paramIsNum p then writeNum r p o.a else writeInt r p o.raw, .ok (.int 0))

/-- RDR on values (R102). -/
def rdrRegs {α : Type} (addr : Nat) (r : Regs α) : Result α :=
  match regAt? addr with
  | none => (r, .error .badAddr)
  | some x => (r, .ok (readReg r x))

/-- One command on values. -/
def apply {α : Type} (C : Config α) (i : Instr) (o : Operands α) (r : Regs α) : Result α :=
  match i with
  | .nop => (r, .ok (.int 0))
  | .wrr addr => wrrRegs addr o r
  | .rdr addr => rdrRegs addr r
  | .envOn => done (envOnRegs C r)
  | .envOff => done (envOffRegs C r)
  | .envNext => done (envNextRegs C r)
  | .envClosed => done (envClosedRegs C r)
  | .oscStart k => done (oscStartRegs C k o.a r)
  | .oscUpd k tf tc => done (oscUpdRegs C k tf tc o.a r)
  | .oscNext k => done (oscNextRegs C k r)
  | .noiseStart => done (noiseStartRegs C r)
  | .noiseStop => done (noiseStopRegs C r)
  | .noiseUpd => done (noiseUpdRegs C r)
  | .noiseNext => done (noiseNextRegs C r)
  | .lfoUpd => done (lfoUpdRegs C r)
  | .lfoNext => done (lfoNextRegs C r)
  | .lfoQry => done (lfoQryRegs r)
  | .fltStart => done (fltStartRegs C r)
  | .fltStop => done (fltStopRegs C r)
  | .fltApply tf tq => done (fltApplyRegs C tf tq o.a o.b r)

end Sys2Proof.Machine
end

