-- ==== Sys2Proof/Safety.lean ====
section
/-! DEFINITION. The terms claims use: numbers that binary32 holds, the nominal ranges (R24, R30) and the invariants (R25,
R34). None of them is built into the step. -/

namespace Sys2Proof.Machine

/-- Whether what a register holds is a value of its type: a numeric register holds a binary32 number. -/
def valWf : RegVal Num32 → Bool
  | .num v => isBinary32 v
  | .int _ => true

/-- Every numeric register holds a binary32 number (R11). -/
def regsWf (r : Regs Num32) : Bool := allRegs.all fun x => valWf (readReg r x)

/-- `lo <= v <= hi`. -/
def inRange {α : Type} (C : Config α) (lo v hi : α) : Bool := C.le lo v && C.le v hi

/-- `0 <= v <= 1`. -/
def unitRange {α : Type} (C : Config α) (v : α) : Bool := inRange C C.zero v C.one

/-- `-1 <= v <= 1`. -/
def bipolar {α : Type} (C : Config α) (v : α) : Bool := inRange C (C.lit (-1) 1) v C.one

/-- `0 <= p < 1`. -/
def phaseOk {α : Type} (C : Config α) (p : α) : Bool := C.le C.zero p && C.lt p C.one

/-! ### Nominal ranges (R24, R30) -/

/-- The nominal ranges of an `ADSR` group. -/
def nominalAdsr {α : Type} (C : Config α) (p : Adsr α) : Bool :=
  inRange C C.zero p.attack (C.lit 16 1) && inRange C C.zero p.decay (C.lit 16 1) && unitRange C p.sustain &&
    inRange C C.zero p.release (C.lit 16 1)

/-- The nominal ranges of an oscillator's parameters. -/
def nominalOsc {α : Type} (C : Config α) (p : OscParams α) : Bool :=
  decide (p.wave.toNat ≤ 5) &&
    (inRange C (C.lit (-4) 1) p.oct (C.lit 4 1) && C.le p.oct (C.floor p.oct)) &&
    inRange C (C.lit (-1200) 1) p.cents (C.lit 1200 1) && inRange C C.zero p.drive (C.lit 64 1) && unitRange C p.gain

/-- The nominal ranges of the LFO's parameters. -/
def nominalLfo {α : Type} (C : Config α) (p : LfoParams α) : Bool :=
  inRange C C.zero p.freq (C.lit 64 1) && unitRange C p.depth && decide (p.wave.toNat ≤ 4) && decide (p.target.toNat ≤ 9)

/-- The nominal ranges of the noise generator's parameters. -/
def nominalNoise {α : Type} (C : Config α) (p : NoiseParams α) : Bool :=
  unitRange C p.color && inRange C C.zero p.dur C.nDurMax && unitRange C p.gain

/-- The nominal ranges of the filter's parameters. -/
def nominalFlt {α : Type} (C : Config α) (p : FltParams α) : Bool :=
  inRange C C.zero p.cutoff (C.lit 20000 1) && inRange C C.zero p.res (C.lit 16 1) &&
    inRange C (C.lit (-20000) 1) p.envAmt (C.lit 20000 1) && nominalAdsr C p.adsr

/-- Every parameter register is in its nominal range (R24). -/
def nominalParams {α : Type} (C : Config α) (p : ParamRegs α) : Bool :=
  inRange C C.fsMin p.fs (C.lit (2 ^ 20) 1) && nominalLfo C p.lfo && nominalOsc C p.o1 && nominalOsc C p.o2 &&
    nominalNoise C p.noise && nominalFlt C p.flt && nominalAdsr C p.amp

/-- The operands a command uses are in their nominal ranges (R30). -/
def nominalOperands {α : Type} (C : Config α) (i : Instr) (o : Operands α) : Bool :=
  match i with
  | .oscStart _ => inRange C C.zero o.a (C.lit 20000 1)
  | .oscUpd _ _ _ => bipolar C o.a
  | .fltApply _ _ => inRange C (C.lit (-65536) 1) o.a (C.lit 65536 1) && bipolar C o.b
  | .nop | .wrr _ | .rdr _ | .envOn | .envOff | .envNext | .envClosed | .oscNext _ => true
  | .noiseStart | .noiseStop | .noiseUpd | .noiseNext | .lfoUpd | .lfoNext | .lfoQry | .fltStart | .fltStop => true

/-- What parameters must keep for the corner cases of the rules to hold (R6 for NUM_W, 93_implementation_defined.md U19). -/
def admissible {α : Type} (C : Config α) : Bool :=
  decide (32 ≤ C.numW) && C.lt C.zero C.fsMin && C.lt C.zero C.tMin && phaseOk C C.phase0 && C.rngSeed != 0 &&
    C.lt C.zero C.fcMin && C.lt C.zero C.fcFrac && C.lt C.fcFrac (C.lit 1 2) && C.lt C.zero C.qMin && C.le C.qMin C.qMax &&
    C.lt C.zero C.nAttack && C.lt C.zero C.nRelease

/-! ### Invariants (R25, R34) -/

/-- The invariant of an oscillator: its phase is in [0, 1) and its increment is not negative. -/
def oscInv {α : Type} (C : Config α) (o : OscState α) : Bool := phaseOk C o.phase && C.le C.zero o.inc

/-- The invariant of the LFO. -/
def lfoInv {α : Type} (C : Config α) (o : LfoState α) : Bool := phaseOk C o.phase && C.le C.zero o.inc

/-- What holds with no premise on parameters or operands: the phases, the increments, the noise register, and the elapsed
times. -/
def signalInv {α : Type} (C : Config α) (r : Regs α) : Bool :=
  oscInv C r.osc1 && oscInv C r.osc2 && lfoInv C r.lfo && r.noise.rng != 0 && unitRange C r.noise.dt &&
    C.le C.zero r.envA.t && C.le C.zero r.envN.t && C.le C.zero r.envF.t

/-- The levels of an envelope are in [0, 1]. -/
def envLevels {α : Type} (C : Config α) (e : Env α) : Bool := unitRange C e.level && unitRange C e.rel0

/-- The levels of the three envelopes. -/
def levelInv {α : Type} (C : Config α) (r : Regs α) : Bool := envLevels C r.envA && envLevels C r.envN && envLevels C r.envF

/-- What holds of the noise filter: its state is in [-1, 1] and its coefficient in [0, 1). -/
def noiseInv {α : Type} (C : Config α) (r : Regs α) : Bool := bipolar C r.noise.lp && phaseOk C r.noise.a

/-- The whole invariant of R34. -/
def coreInv {α : Type} (C : Config α) (r : Regs α) : Bool := signalInv C r && levelInv C r && noiseInv C r

/-! ### Sequences of commands on values -/

/-- The registers after a list of commands issued in order (R22, R65). -/
def valueRun {α : Type} (C : Config α) : List (Instr × Operands α) → Regs α → Regs α
  | [], r => r
  | (i, o) :: rest, r => valueRun C rest (apply C i o r).1

/-- Every command of the list meets parameters and operands in their nominal ranges when it is issued. -/
def nominalRun {α : Type} (C : Config α) : List (Instr × Operands α) → Regs α → Prop
  | [], _ => True
  | (i, o) :: rest, r =>
    nominalParams C r.par = true ∧ nominalOperands C i o = true ∧ nominalRun C rest (apply C i o r).1

/-! ### Who writes a state register (R25, column "written by") -/

/-- Whether a command is among those that may write a state register. -/
def mayWrite (q : StateReg) (i : Instr) : Bool :=
  match q with
  | .envAStage | .envAT => [Instr.envOn, .envOff, .envNext].contains i
  | .envALevel => [Instr.envOn, .envNext].contains i
  | .envARel0 => [Instr.envOn, .envOff].contains i
  | .osc1Phase => [Instr.oscStart .osc1, .oscNext .osc1].contains i
  | .osc1Base => [Instr.oscStart .osc1].contains i
  | .osc1Inc => match i with
    | .oscUpd .osc1 _ _ => true
    | _ => false
  | .osc2Phase => [Instr.oscStart .osc2, .oscNext .osc2].contains i
  | .osc2Base => [Instr.oscStart .osc2].contains i
  | .osc2Inc => match i with
    | .oscUpd .osc2 _ _ => true
    | _ => false
  | .noiseRng => [Instr.noiseNext].contains i
  | .noiseLp => [Instr.noiseStart, .noiseNext].contains i
  | .noiseA | .noiseDec | .noiseDt => [Instr.noiseUpd].contains i
  | .envNStage | .envNT => [Instr.noiseStart, .noiseStop, .noiseNext].contains i
  | .envNLevel => [Instr.noiseStart, .noiseNext].contains i
  | .envNRel0 => [Instr.noiseStart, .noiseStop].contains i
  | .lfoPhase => [Instr.lfoNext].contains i
  | .lfoInc => [Instr.lfoUpd].contains i
  | .fltS1 | .fltS2 => match i with
    | .fltStart | .fltApply _ _ => true
    | _ => false
  | .envFStage | .envFT => match i with
    | .fltStart | .fltStop | .fltApply _ _ => true
    | _ => false
  | .envFLevel => match i with
    | .fltStart | .fltApply _ _ => true
    | _ => false
  | .envFRel0 => [Instr.fltStart, .fltStop].contains i

/-! ### Exact values -/

/-- The exact value of a binary32 number. -/
def numVal (x : Num32) : ℚ := (x.units : ℚ) / 2 ^ 149

/-- The least magnitude that rounds out of binary32. -/
def overflowBound : ℚ := 2 ^ 128 - 2 ^ 103

/-- `x` is the exact value `v` rounded to nearest, ties to even (R10): no number is nearer, and where another one is as near,
the significand of `x` is even. -/
def nearestEven (v : ℚ) (x : Num32) : Prop :=
  isBinary32 x = true ∧ ∀ z : Num32, isBinary32 z = true →
    |v - numVal x| ≤ |v - numVal z| ∧
    (z ≠ x → |v - numVal z| = |v - numVal x| → x.units.natAbs / spacing x.units.natAbs % 2 = 0)

/-! ### Responses -/

/-- The filter bypass, the one command whose data are the bits of an operand (R194). -/
def isBypass (i : Instr) (r : Regs Num32) : Bool :=
  match i with
  | .fltApply _ _ => r.par.flt.en == 0
  | .nop | .wrr _ | .rdr _ | .envOn | .envOff | .envNext | .envClosed | .oscStart _ | .oscUpd _ _ _ | .oscNext _ => false
  | .noiseStart | .noiseStop | .noiseUpd | .noiseNext | .lfoUpd | .lfoNext | .lfoQry | .fltStart | .fltStop => false

/-- The response a result of the value level becomes on the port (R83, R211). -/
def responseOf (bypass : Bool) (a : Word) : Except RejectCode (RegVal Num32) → Response 32
  | .error c => ⟨true, rejectWord c⟩
  | .ok v => ⟨false, if bypass then a else wordOfVal v⟩

/-- The numeric operands a command uses are all finite (R213). -/
def operandsFinite (i : Instr) (a b : Word) : Bool :=
  match i with
  | .wrr addr =>
    match regAt? addr with
    | some (.param p) => !paramIsNum p || isFiniteWord a
    | some (.state _) | none => true
  | .oscStart _ | .oscUpd _ _ _ => isFiniteWord a
  | .fltApply _ _ => isFiniteWord a && isFiniteWord b
  | .nop | .rdr _ | .envOn | .envOff | .envNext | .envClosed | .oscNext _ => true
  | .noiseStart | .noiseStop | .noiseUpd | .noiseNext | .lfoUpd | .lfoNext | .lfoQry | .fltStart | .fltStop => true

/-- The elapsed time, stage and level of an envelope after `n` steps with constant times and a constant sample period. -/
def envAfter {α : Type} (C : Config α) (p : Adsr α) (dt : α) : Nat → Env α → Env α
  | 0, e => e
  | n + 1, e => envNext C (envAfter C p dt n e) p dt

end Sys2Proof.Machine
end

