-- ==== Sys2Proof/Certificates/Slice0/Obligations.lean ====
section
/-! DEFINITION. The statements about the model, from the numbered rules of the spec. -/

open Sys2Proof Sys2Proof.Machine

/-! ### Reset and the step -/

/-- R33. Word 0 is the number 0 or the integer 0; 0x473B8000 is 48000. -/
def Obligations.ResetGivesEveryRegisterItsResetValue : Prop :=
  (∀ x : RegName, wordOfVal (readReg State.reset.regs x) =
    if x = .param .fs then 0x473B8000 else if x = .state .noiseRng then 0x00000001 else 0) ∧
  numVal State.reset.regs.par.fs = 48000 ∧ regsWf State.reset.regs = true

/-- R230: an edge with `rst = 1`. R221: idle between commands. That the host's later events and the count of commands survive an edge
is the model's choice (log entries 1 and 3). -/
def Obligations.ResetEdgeResetsAndIdleKeepsEverything : Prop :=
  (∀ (s : State) (rest : List PortEvent), s.queue = .rst :: rest →
    ∃ t, step s = .next t ∧ t.regs = State.reset.regs ∧ t.rsp = none ∧ t.queue = rest) ∧
  (∀ s : State, s.queue = [] → step s = .next s)

/-- R9, R65, R82, R90: a presented word that decodes runs as `exec` of its command on the accepted state, which differs from the state before
in the sampled buses, the response port, the events still to come and the count alone (log entry 1). -/
def Obligations.StepRunsTheDecodedCommand : Prop :=
  ∀ (s : State) (c : Command) (rest : List PortEvent) (i : Instr),
    s.queue = .command c :: rest → decode c.word = .ok i →
      step s = exec i { s with cmdA := c.a, cmdB := c.b, rsp := none, queue := rest, count := s.count + 1 }

/-- V30.1 and V30.2: words of each unit, with every field. -/
def Obligations.WordsDecodeToTheirCommands : Prop :=
  decode 0x00000000 = .ok .nop ∧ decode 0x012A0000 = .ok (.wrr 0x2A) ∧ decode 0x02B10000 = .ok (.rdr 0xB1) ∧
  decode 0x14000000 = .ok .envClosed ∧ decode 0x20000100 = .ok (.oscStart .osc2) ∧
  decode 0x22000101 = .ok (.oscUpd .osc2 true false) ∧ decode 0x22000002 = .ok (.oscUpd .osc1 false true) ∧
  decode 0x33000000 = .ok .noiseNext ∧ decode 0x44000000 = .ok .lfoQry ∧
  decode 0x53000001 = .ok (.fltApply true false) ∧ decode 0x53000002 = .ok (.fltApply false true)

/-- R88 and R89: a word with an OP outside the map is answered with code 1, a word of the map with a fixed bit wrong with code 2; no register
changes. -/
def Obligations.UndecodableWordsAreRejected : Prop :=
  ∀ (s : State) (c : Command) (rest : List PortEvent), s.queue = .command c :: rest →
    ((∀ o : Opcode, opcodeByte o ≠ fieldOp c.word) →
      ∃ t, step s = .next t ∧ t.rsp = some ⟨true, 1⟩ ∧ t.regs = s.regs) ∧
    (∀ o : Opcode, opcodeByte o = fieldOp c.word →
      c.word &&& formatMask (opcodeFormat o) ≠ (opcodeByte o).setWidth 32 <<< 24 →
      ∃ t, step s = .next t ∧ t.rsp = some ⟨true, 2⟩ ∧ t.regs = s.regs)

/-! ### Encoding -/

/-- R90: every word falls under exactly one of the three cases, in this order. -/
def Obligations.DecoderIsTotalAndExact : Prop :=
  ∀ w : Word,
    ((∀ o : Opcode, opcodeByte o ≠ fieldOp w) → decode w = .error .illegalOp) ∧
    (∀ o : Opcode, opcodeByte o = fieldOp w →
      (w &&& formatMask (opcodeFormat o) ≠ (opcodeByte o).setWidth 32 <<< 24 → decode w = .error .reservedField) ∧
      (w &&& formatMask (opcodeFormat o) = (opcodeByte o).setWidth 32 <<< 24 →
        ∃ i, decode w = .ok i ∧ opcodeOfInstr i = o))

/-- R84 to R87, R92: decoding the word of a well-formed command gives it back. -/
def Obligations.DecodeOfEncodeIsTheCommand : Prop :=
  ∀ i : Instr, i.wf = true → decode (encode i) = .ok i

/-- R85, R90: a word that decodes is the word of the command it decodes to, so every command has one word. -/
def Obligations.EncodeOfDecodeIsTheWord : Prop :=
  ∀ (w : Word) (i : Instr), decode w = .ok i → i.wf = true ∧ encode i = w

/-- R23, R24, R25, R28, R29, R61: the register map. An address names at most one register and the register it names has it; the halves are as
R23 says; 60 addresses of the 256 are implemented; and what the register at each address holds, is written out for all of them: the value of
which field, as a number or as an integer, a stage by its code. -/
def Obligations.RegisterMapIsOneToOne : Prop :=
  (∀ (a : Nat) (x : RegName), regAt? a = some x ↔ regAddr x = a) ∧
  (∀ p : ParamReg, paramAddr p < 0x80) ∧ (∀ q : StateReg, 0x80 ≤ stateAddr q ∧ stateAddr q ≤ 0xFF) ∧
  ((List.range 256).filter fun a => (regAt? a).isSome).length = 60 ∧
  (∀ (α : Type) (r : Regs α),
    let p := r.par
    let code := fun st : Stage =>
      (match st with
        | .idle => 0
        | .attack => 1
        | .decay => 2
        | .sustain => 3
        | .release => 4 : Word)
    let held := fun a : Nat => (regAt? a).map fun x => (a, readReg r x)
    (List.range' 0x00 0x80).filterMap held =
      [(0x00, .num p.fs), (0x08, .int (p.lfo.en.setWidth 32)), (0x09, .num p.lfo.freq), (0x0A, .num p.lfo.depth),
      (0x0B, .int (p.lfo.wave.setWidth 32)), (0x0C, .int (p.lfo.target.setWidth 32)),
      (0x10, .int (p.o1.wave.setWidth 32)), (0x11, .num p.o1.oct), (0x12, .num p.o1.cents), (0x13, .num p.o1.drive),
      (0x14, .num p.o1.gain), (0x18, .int (p.o2.wave.setWidth 32)), (0x19, .num p.o2.oct), (0x1A, .num p.o2.cents),
      (0x1B, .num p.o2.drive), (0x1C, .num p.o2.gain), (0x20, .int (p.noise.en.setWidth 32)),
      (0x21, .num p.noise.color), (0x22, .num p.noise.dur), (0x23, .num p.noise.gain),
      (0x28, .int (p.flt.en.setWidth 32)), (0x29, .int (p.flt.ftype.setWidth 32)), (0x2A, .num p.flt.cutoff),
      (0x2B, .num p.flt.res), (0x2C, .num p.flt.envAmt), (0x2D, .num p.flt.adsr.attack),
      (0x2E, .num p.flt.adsr.decay), (0x2F, .num p.flt.adsr.sustain), (0x30, .num p.flt.adsr.release),
      (0x38, .num p.amp.attack), (0x39, .num p.amp.decay), (0x3A, .num p.amp.sustain), (0x3B, .num p.amp.release)] ∧
    (List.range' 0x80 0x80).filterMap held =
      [(0x80, .int (code r.envA.stage)), (0x81, .num r.envA.t), (0x82, .num r.envA.level), (0x83, .num r.envA.rel0),
      (0x88, .num r.osc1.phase), (0x89, .num r.osc1.base), (0x8A, .num r.osc1.inc), (0x90, .num r.osc2.phase),
      (0x91, .num r.osc2.base), (0x92, .num r.osc2.inc), (0x98, .int r.noise.rng), (0x99, .num r.noise.lp),
      (0x9A, .num r.noise.a), (0x9B, .num r.noise.dec), (0x9C, .num r.noise.dt), (0xA0, .int (code r.envN.stage)),
      (0xA1, .num r.envN.t), (0xA2, .num r.envN.level), (0xA3, .num r.envN.rel0), (0xA8, .num r.lfo.phase),
      (0xA9, .num r.lfo.inc), (0xB0, .num r.flt.s1), (0xB1, .num r.flt.s2), (0xB8, .int (code r.envF.stage)),
      (0xB9, .num r.envF.t), (0xBA, .num r.envF.level), (0xBB, .num r.envF.rel0)])

/-! ### System commands -/

/-- R100. -/
def Obligations.NopOnlyResponds : Prop :=
  (∀ s : State, exec .nop s = .next { s with rsp := some ⟨false, 0⟩ }) ∧ decode 0x00000000 = .ok .nop

/-- R101, with the order of its rejects. -/
def Obligations.WrrStoresOrRejects : Prop :=
  ∀ (addr : Nat) (s : State),
    (regAt? addr = none → exec (.wrr addr) s = .next { s with rsp := some ⟨true, 3⟩ }) ∧
    (∀ q, regAt? addr = some (.state q) → exec (.wrr addr) s = .next { s with rsp := some ⟨true, 4⟩ }) ∧
    (∀ p, regAt? addr = some (.param p) → paramIsNum p = true → numOfWord s.cmdA = none →
      exec (.wrr addr) s = .next { s with rsp := some ⟨true, 5⟩ }) ∧
    (∀ p v, regAt? addr = some (.param p) → paramIsNum p = true → numOfWord s.cmdA = some v →
      exec (.wrr addr) s = .next { s with regs := writeNum s.regs p v, rsp := some ⟨false, 0⟩ }) ∧
    (∀ p, regAt? addr = some (.param p) → paramIsNum p = false →
      exec (.wrr addr) s = .next { s with regs := writeInt s.regs p s.cmdA, rsp := some ⟨false, 0⟩ }) ∧
    (addr < 256 → decode (0x01000000 + (BitVec.ofNat 32 addr <<< 16)) = .ok (.wrr addr))

/-- R23, R26, R64: a written parameter register holds what was written, an integer register of k bits the low k bits of the bus; every other
register is as before. -/
def Obligations.WrittenParameterReadsBack : Prop :=
  ∀ (r : Regs Num32) (p : ParamReg) (v : Num32) (w : Word),
    (paramIsNum p = true → readReg (writeNum r p v) (.param p) = .num v) ∧
    (paramIsNum p = false →
      readReg (writeInt r p w) (.param p) = .int (BitVec.ofNat 32 (w.toNat % 2 ^ paramBits p))) ∧
    (∀ x : RegName, x ≠ .param p →
      readReg (writeNum r p v) x = readReg r x ∧ readReg (writeInt r p w) x = readReg r x)

/-- R102, and R29: a stage register is answered with its code. -/
def Obligations.RdrAnswersWithTheRegister : Prop :=
  ∀ (addr : Nat) (s : State),
    (regAt? addr = none → exec (.rdr addr) s = .next { s with rsp := some ⟨true, 3⟩ }) ∧
    (∀ x v, regAt? addr = some x → readReg s.regs x = .num v →
      exec (.rdr addr) s = .next { s with rsp := some ⟨false, wordOfNum v⟩ }) ∧
    (∀ x n, regAt? addr = some x → readReg s.regs x = .int n →
      exec (.rdr addr) s = .next { s with rsp := some ⟨false, n⟩ }) ∧
    (let code := fun st : Stage =>
      (match st with
        | .idle => 0
        | .attack => 1
        | .decay => 2
        | .sustain => 3
        | .release => 4 : Word)
     exec (.rdr 0x80) s = .next { s with rsp := some ⟨false, code s.regs.envA.stage⟩ } ∧
     exec (.rdr 0xA0) s = .next { s with rsp := some ⟨false, code s.regs.envN.stage⟩ } ∧
     exec (.rdr 0xB8) s = .next { s with rsp := some ⟨false, code s.regs.envF.stage⟩ }) ∧
    (addr < 256 → decode (0x02000000 + (BitVec.ofNat 32 addr <<< 16)) = .ok (.rdr addr))

/-! ### Envelope -/

/-- R111, R113, R115, R116: the two functions on any envelope record, from every stage, and the two commands. -/
def Obligations.EnvOnAttacksAndEnvOffReleases : Prop :=
  (∀ (α : Type) (C : Config α) (e : Env α),
    envOn C = ⟨.attack, C.zero, C.zero, C.zero⟩ ∧ envOff C e = ⟨.release, C.zero, e.level, e.level⟩) ∧
  (∀ s : State,
    exec .envOn s =
      .next { s with regs := { s.regs with envA := ⟨.attack, ⟨0⟩, ⟨0⟩, ⟨0⟩⟩ }, rsp := some ⟨false, 0⟩ } ∧
    exec .envOff s =
      .next { s with
        regs := { s.regs with envA := ⟨.release, ⟨0⟩, s.regs.envA.level, s.regs.envA.level⟩ }
        rsp := some ⟨false, 0⟩ }) ∧
  decode 0x10000000 = .ok .envOn ∧ decode 0x11000000 = .ok .envOff

/-- R112, for every number system: the stage table of `env_next`. -/
def Obligations.EnvelopeStepFollowsTheStageTable : Prop :=
  ∀ (α : Type) (C : Config α) (t l r0 dt : α) (p : Adsr α),
    let att := numMax C p.attack C.tMin
    let dec := numMax C p.decay C.tMin
    let rel := numMax C p.release C.tMin
    let u := C.add t dt
    envNext C ⟨.idle, t, l, r0⟩ p dt = ⟨.idle, t, C.zero, r0⟩ ∧
    envNext C ⟨.attack, t, l, r0⟩ p dt =
      (if C.le att u = true then ⟨.decay, C.zero, C.one, r0⟩ else ⟨.attack, u, C.div u att, r0⟩) ∧
    envNext C ⟨.decay, t, l, r0⟩ p dt =
      (if C.le dec u = true then ⟨.sustain, C.zero, p.sustain, r0⟩
       else ⟨.decay, u, C.sub C.one (C.mul (C.sub C.one p.sustain) (C.div u dec)), r0⟩) ∧
    envNext C ⟨.sustain, t, l, r0⟩ p dt = ⟨.sustain, t, p.sustain, r0⟩ ∧
    envNext C ⟨.release, t, l, r0⟩ p dt =
      (if C.le rel u = true then ⟨.idle, C.zero, C.zero, r0⟩
       else ⟨.release, u, C.mul r0 (C.sub C.one (C.div u rel)), r0⟩)

/-- R114, R117: ENV.NEXT steps ENV_A with the `A_*` parameters and the sample period of the FS register, and answers with the new level. -/
def Obligations.EnvNextStepsEnvA : Prop :=
  (∀ s : State,
    let C := s.config
    let e := envNext C s.regs.envA s.regs.par.amp (C.div ⟨2 ^ 149⟩ (numMax C s.regs.par.fs (lit32 1 1)))
    exec .envNext s = .next { s with regs := { s.regs with envA := e }, rsp := some ⟨false, wordOfNum e.level⟩ }) ∧
  decode 0x13000000 = .ok .envNext

/-- R118, R119: the threshold is the number nearest to 10^-6, word 0x358637BD, and the comparison is strict. -/
def Obligations.EnvClosedAnswersTheClosedPredicate : Prop :=
  (∀ (n : Nat) (e : Env Num32), closed (binary32 n) e = true ↔
    (e.stage = .release ∨ e.stage = .idle) ∧ e.level.units < (lit32 1 (10 ^ 6)).units) ∧
  wordOfNum (lit32 1 (10 ^ 6)) = 0x358637BD ∧
  (∀ s : State, exec .envClosed s = .next { s with
    rsp := some ⟨false,
      if (s.regs.envA.stage = .release ∨ s.regs.envA.stage = .idle) ∧
          s.regs.envA.level.units < (lit32 1 (10 ^ 6)).units then 1 else 0⟩ }) ∧
  decode 0x14000000 = .ok .envClosed

/-! ### Oscillator -/

/-- R132. -/
def Obligations.OscStartSetsBaseAndPhase : Prop :=
  ∀ (k : OscId) (s : State),
    (numOfWord s.cmdA = none → exec (.oscStart k) s = .next { s with rsp := some ⟨true, 5⟩ }) ∧
    (∀ a, numOfWord s.cmdA = some a →
      exec (.oscStart k) s = .next { s with
        regs := setOscRegs s.regs k ⟨⟨0⟩, a, (oscRegs s.regs k).inc⟩
        rsp := some ⟨false, 0⟩ }) ∧
    decode (0x20000000 + (if k = .osc2 then 0x100 else 0)) = .ok (.oscStart k)

/-- R133, for all four flag combinations. -/
def Obligations.OscUpdLatchesTheIncrement : Prop :=
  ∀ (k : OscId) (tf tc : Bool) (s : State),
    (numOfWord s.cmdA = none → exec (.oscUpd k tf tc) s = .next { s with rsp := some ⟨true, 5⟩ }) ∧
    (∀ a, numOfWord s.cmdA = some a →
      let C := s.config
      let q := oscParams s.regs k
      let o := oscRegs s.regs k
      let cents := if tc then C.add q.cents (C.mul a (lit32 100 1)) else q.cents
      let f := C.mul (C.mul o.base (C.exp2 q.oct)) (C.exp2 (C.div cents (lit32 1200 1)))
      let f' := if tf then C.add f (C.mul a (lit32 16 1)) else f
      exec (.oscUpd k tf tc) s = .next { s with
        regs := setOscRegs s.regs k
          ⟨o.phase, o.base, C.div (numMax C f' ⟨0⟩) (numMax C s.regs.par.fs (lit32 1 1))⟩
        rsp := some ⟨false, 0⟩ }) ∧
    decode (0x22000000 + (if k = .osc2 then 0x100 else 0) + (if tc then 2 else 0) + (if tf then 1 else 0)) =
      .ok (.oscUpd k tf tc)

/-- R134: advance, wrap, evaluate at the new phase, scale. -/
def Obligations.OscNextAdvancesAndEvaluates : Prop :=
  ∀ (k : OscId) (s : State),
    let C := s.config
    let q := oscParams s.regs k
    let o := oscRegs s.regs k
    let u := C.add o.phase o.inc
    let p := C.sub u (C.floor u)
    exec (.oscNext k) s = .next { s with
      regs := setOscRegs s.regs k ⟨p, o.base, o.inc⟩
      rsp := some ⟨false, wordOfNum (C.mul (wave C q.wave p o.inc q.drive) q.gain)⟩ } ∧
    decode (0x23000000 + (if k = .osc2 then 0x100 else 0)) = .ok (.oscNext k)

/-- R135 to R141, for every number system. -/
def Obligations.WaveformsFollowTheirFormulas : Prop :=
  ∀ (α : Type) (C : Config α) (p inc drive : α),
    let n := fun k : Int => C.lit k 1
    let saw := C.sub (C.mul (n 2) p) C.one
    let x1 := C.div p inc
    let x2 := C.div (C.sub p C.one) inc
    let c :=
      if C.lt C.zero inc = true ∧ C.lt inc (C.lit 1 2) = true then
        if C.lt p inc = true then C.sub (C.sub (C.add x1 x1) (C.mul x1 x1)) C.one
        else if C.lt (C.sub C.one inc) p = true then C.add (C.add (C.mul x2 x2) (C.add x2 x2)) C.one
        else C.zero
      else C.zero
    wave C 0 p inc drive = C.sin2pi p ∧
    wave C 1 p inc drive =
      (if C.lt p (C.lit 1 4) = true then C.mul (n 4) p
       else if C.lt p (C.lit 3 4) = true then C.sub (n 2) (C.mul (n 4) p)
       else C.sub (C.mul (n 4) p) (n 4)) ∧
    wave C 2 p inc drive = (if C.lt p (C.lit 1 2) = true then C.one else n (-1)) ∧
    wave C 3 p inc drive = saw ∧
    wave C 4 p inc drive = C.tanh (C.mul (numMax C drive C.zero) (C.sin2pi p)) ∧
    wave C 5 p inc drive = C.sub saw c ∧
    wave C 6 p inc drive = C.zero ∧ wave C 7 p inc drive = C.zero

/-! ### Noise generator -/

/-- R151, R152. -/
def Obligations.NoiseStartAndNoiseStop : Prop :=
  ∀ s : State,
    exec .noiseStart s = .next { s with
      regs := { s.regs with
        noise := { s.regs.noise with lp := ⟨0⟩ }
        envN := ⟨.attack, ⟨0⟩, ⟨0⟩, ⟨0⟩⟩ }
      rsp := some ⟨false, 0⟩ } ∧
    exec .noiseStop s = .next { s with
      regs := { s.regs with envN := ⟨.release, ⟨0⟩, s.regs.envN.level, s.regs.envN.level⟩ }
      rsp := some ⟨false, 0⟩ } ∧
    decode 0x30000000 = .ok .noiseStart ∧ decode 0x31000000 = .ok .noiseStop

/-- The formulas of R153, whose TWO_PI is the word 0x40C90FDB (R16). R153 and U9 leave the result open where `1 + w` is 0; that the command
completes there too, with a free value in `NOISE.a` (`div32`), is the model's choice (log entry 4), and so the statement is marked derived. -/
def Obligations.NoiseUpdLatchesItsValues : Prop :=
  ∀ s : State,
    let C := s.config
    let fsEff := numMax C s.regs.par.fs (lit32 1 1)
    let fc := C.add (lit32 20 1) (C.mul s.regs.par.noise.color (lit32 5000 1))
    let w := C.div (C.mul C.twoPi fc) fsEff
    exec .noiseUpd s = .next { s with
      regs := { s.regs with
        noise := { s.regs.noise with
          a := C.div w (C.add ⟨2 ^ 149⟩ w)
          dec := if (lit32 4 1).units ≤ s.regs.par.noise.dur.units then lit32 (2 ^ 20) 1 else s.regs.par.noise.dur
          dt := C.div ⟨2 ^ 149⟩ fsEff } }
      rsp := some ⟨false, 0⟩ } ∧
    wordOfNum C.twoPi = 0x40C90FDB ∧ decode 0x32000000 = .ok .noiseUpd

/-- R155: disabled, and enabled. -/
def Obligations.NoiseNextDrawsFiltersAndGates : Prop :=
  ∀ s : State,
    let C := s.config
    let n := s.regs.noise
    let g := rngStep n.rng
    let lp := C.add n.lp (C.mul n.a (C.sub (rngValue C g) n.lp))
    let e := envNext C s.regs.envN ⟨lit32 1 (2 ^ 8), n.dec, ⟨0⟩, lit32 1 (2 ^ 8)⟩ n.dt
    (s.regs.par.noise.en = 0 → exec .noiseNext s = .next { s with rsp := some ⟨false, 0⟩ }) ∧
    (s.regs.par.noise.en = 1 → exec .noiseNext s = .next { s with
      regs := { s.regs with noise := { n with rng := g, lp := lp }, envN := e }
      rsp := some ⟨false, wordOfNum (C.mul (C.mul lp e.level) s.regs.par.noise.gain)⟩ }) ∧
    decode 0x33000000 = .ok .noiseNext

/-- R154: the step, the exact value of a draw, the reset value, the fixed point 0, and the first six register values after reset. -/
def Obligations.RandomSourceStepsAndScales : Prop :=
  (∀ x : BitVec 32,
    let x1 := x ^^^ (x <<< 13)
    let x2 := x1 ^^^ (x1 >>> 17)
    rngStep x = x2 ^^^ (x2 <<< 5)) ∧
  (∀ (n : Nat) (x : BitVec 32),
    numVal (rngValue (binary32 n) x) = (((x.toNat / 256 : Nat) : ℚ) - 2 ^ 23) / 2 ^ 23 ∧
    isBinary32 (rngValue (binary32 n) x) = true) ∧
  State.reset.regs.noise.rng = 1 ∧ rngStep 0 = 0 ∧ (∀ x : BitVec 32, x ≠ 0 → rngStep x ≠ 0) ∧
  rngStep 1 = 0x00042021 ∧ rngStep 0x00042021 = 0x04080601 ∧ rngStep 0x04080601 = 0x9DCCA8C5 ∧
  rngStep 0x9DCCA8C5 = 0x1255994F ∧ rngStep 0x1255994F = 0x8EF917D1 ∧ rngStep 0x8EF917D1 = 0x2C6F5BD0

/-- The step is an invertible map (93_implementation_defined.md part 2, on R154): one to one, and every value is the step of one. -/
def Obligations.RandomStepIsOneToOne : Prop :=
  (∀ x y : BitVec 32, rngStep x = rngStep y → x = y) ∧ (∀ y : BitVec 32, ∃ x, rngStep x = y)

/-! ### LFO and router -/

/-- R172. -/
def Obligations.LfoUpdLatchesTheIncrement : Prop :=
  decode 0x42000000 = .ok .lfoUpd ∧
  ∀ s : State,
    let C := s.config
    exec .lfoUpd s = .next { s with
      regs := { s.regs with
        lfo := ⟨s.regs.lfo.phase, C.div (numMax C s.regs.par.lfo.freq ⟨0⟩) (numMax C s.regs.par.fs (lit32 1 1))⟩ }
      rsp := some ⟨false, 0⟩ }

/-- R173, R174: whether the LFO is enabled or not. -/
def Obligations.LfoNextAdvancesAndEvaluates : Prop :=
  decode 0x43000000 = .ok .lfoNext ∧
  ∀ s : State,
    let C := s.config
    let u := C.add s.regs.lfo.phase s.regs.lfo.inc
    let p := C.sub u (C.floor u)
    let v :=
      match s.regs.par.lfo.wave.toNat with
      | 0 => C.sin2pi p
      | 1 =>
        if C.lt p (lit32 1 4) = true then C.mul (lit32 4 1) p
        else if C.lt p (lit32 3 4) = true then C.sub (lit32 2 1) (C.mul (lit32 4 1) p)
        else C.sub (C.mul (lit32 4 1) p) (lit32 4 1)
      | 2 => if C.lt p (lit32 1 2) = true then ⟨2 ^ 149⟩ else lit32 (-1) 1
      | 3 => C.sub (C.mul (lit32 2 1) p) ⟨2 ^ 149⟩
      | 4 => C.sub ⟨2 ^ 149⟩ (C.mul (lit32 2 1) p)
      | _ => ⟨0⟩
    exec .lfoNext s = .next { s with
      regs := { s.regs with lfo := ⟨p, s.regs.lfo.inc⟩ }
      rsp := some ⟨false, wordOfNum (C.mul v s.regs.par.lfo.depth)⟩ }

/-- R176: the ten bits, the upper bits of the response 0, no state changed. -/
def Obligations.LfoQryAnswersTheRouterBits : Prop :=
  decode 0x44000000 = .ok .lfoQry ∧
  ∀ s : State, ∃ w : Word, exec .lfoQry s = .next { s with rsp := some ⟨false, w⟩ } ∧
    let on := s.regs.par.lfo.en = 1
    let t := s.regs.par.lfo.target.toNat
    (w.getLsbD 0 = true ↔ on ∧ (t = 0 ∨ t = 4)) ∧ (w.getLsbD 1 = true ↔ on ∧ (t = 1 ∨ t = 5)) ∧
    (w.getLsbD 2 = true ↔ on ∧ (t = 2 ∨ t = 4)) ∧ (w.getLsbD 3 = true ↔ on ∧ (t = 3 ∨ t = 5)) ∧
    (∀ i, 4 ≤ i → i ≤ 9 → (w.getLsbD i = true ↔ on ∧ t = i)) ∧ (∀ i, 10 ≤ i → w.getLsbD i = false)

/-- R177: at most one bit is set, but for the two combined targets; a disabled LFO sets none. -/
def Obligations.RouterBitsAreExclusive : Prop :=
  (∀ (en : BitVec 1) (t : BitVec 4), t ≠ 4 → t ≠ 5 → ∀ i j : Fin 10,
    (routerBits en t).getLsbD i = true → (routerBits en t).getLsbD j = true → i = j) ∧
  (∀ t : BitVec 4, routerBits 0 t = 0) ∧ routerBits 1 4 = 0x015 ∧ routerBits 1 5 = 0x02A

/-! ### Filter -/

/-- R191, R192. -/
def Obligations.FltStartAndFltStop : Prop :=
  ∀ s : State,
    exec .fltStart s = .next { s with
      regs := { s.regs with envF := ⟨.attack, ⟨0⟩, ⟨0⟩, ⟨0⟩⟩, flt := ⟨⟨0⟩, ⟨0⟩⟩ }
      rsp := some ⟨false, 0⟩ } ∧
    exec .fltStop s = .next { s with
      regs := { s.regs with envF := ⟨.release, ⟨0⟩, s.regs.envF.level, s.regs.envF.level⟩ }
      rsp := some ⟨false, 0⟩ } ∧
    decode 0x50000000 = .ok .fltStart ∧ decode 0x51000000 = .ok .fltStop

/-- R193, for all four flag combinations and both responses: the reject, which comes first, the bypass, and the filter. -/
def Obligations.FltApplyFilters : Prop :=
  ∀ (tf tq : Bool) (s : State),
    (numOfWord s.cmdA = none ∨ numOfWord s.cmdB = none →
      exec (.fltApply tf tq) s = .next { s with rsp := some ⟨true, 5⟩ }) ∧
    (∀ x lfo, numOfWord s.cmdA = some x → numOfWord s.cmdB = some lfo → s.regs.par.flt.en = 0 →
      exec (.fltApply tf tq) s = .next { s with rsp := some ⟨false, s.cmdA⟩ }) ∧
    (∀ x lfo, numOfWord s.cmdA = some x → numOfWord s.cmdB = some lfo → s.regs.par.flt.en = 1 →
      let C := s.config
      let f := s.regs.par.flt
      let fsEff := numMax C s.regs.par.fs (lit32 1 1)
      let e := envNext C s.regs.envF f.adsr (C.div ⟨2 ^ 149⟩ fsEff)
      let fc0 := C.add f.cutoff (C.mul e.level f.envAmt)
      let fc1 := if tf then C.add fc0 (C.mul lfo (lit32 1024 1)) else fc0
      let fc := numMin C (numMax C fc1 (lit32 20 1)) (numMin C (lit32 20000 1) (C.mul (lit32 7 16) fsEff))
      let q1 := if tq then C.add f.res (C.mul lfo (lit32 4 1)) else f.res
      let q := numMin C (numMax C q1 (lit32 1 2)) (lit32 16 1)
      let g := C.tanpi (C.div fc fsEff)
      let r2 := C.div ⟨2 ^ 149⟩ q
      let h := C.div ⟨2 ^ 149⟩ (C.add (C.add ⟨2 ^ 149⟩ (C.mul r2 g)) (C.mul g g))
      let yHP := C.mul h (C.sub (C.sub x (C.mul s.regs.flt.s1 (C.add g r2))) s.regs.flt.s2)
      let yBP := C.add (C.mul yHP g) s.regs.flt.s1
      let yLP := C.add (C.mul yBP g) s.regs.flt.s2
      exec (.fltApply tf tq) s = .next { s with
        regs := { s.regs with envF := e, flt := ⟨C.add (C.mul yHP g) yBP, C.add (C.mul yBP g) yLP⟩ }
        rsp := some ⟨false, wordOfNum (if f.ftype = 0 then yLP else yHP)⟩ }) ∧
    decode (0x53000000 + (if tq then 2 else 0) + (if tf then 1 else 0)) = .ok (.fltApply tf tq)

/-- R194: with the filter disabled and finite operands the response carries the very bits of bus A, also those of a negative zero, and no
register changes. -/
def Obligations.FltApplyBypassesBitForBit : Prop :=
  ∀ (tf tq : Bool) (s : State),
    isFiniteWord s.cmdA = true → isFiniteWord s.cmdB = true → s.regs.par.flt.en = 0 →
      exec (.fltApply tf tq) s = .next { s with rsp := some ⟨false, s.cmdA⟩ }

/-! ### Rules about the whole machine -/

/-- R24: a parameter register is never written by CORE, only by WRR, and WRR changes only the register it names. -/
def Obligations.ParametersChangeOnlyByWrr : Prop :=
  ∀ (i : Instr) (s t : State), exec i s = .next t →
    ∀ p : ParamReg, readParam t.regs p ≠ readParam s.regs p → i = .wrr (paramAddr p)

/-- R25: a state register changes only by the commands its row names. -/
def Obligations.StateRegistersChangeOnlyByTheirWriters : Prop :=
  ∀ (i : Instr) (s t : State), exec i s = .next t →
    ∀ q : StateReg, readState t.regs q ≠ readState s.regs q → mayWrite q i = true

/-- R9, R82: every command answers, and changes nothing but registers and the response port. -/
def Obligations.EveryCommandAnswersAndLeavesThePort : Prop :=
  ∀ (i : Instr) (s : State), ∃ (regs : Regs Num32) (r : Response 32), exec i s = .next { s with regs := regs, rsp := some r }

/-- R210: a command that is rejected leaves every register as it was, in a CORE of any configuration; and the data of the machine's rejects are
one of the five codes. -/
def Obligations.RejectLeavesEveryRegister : Prop :=
  (∀ (α : Type) (C : PortConfig α) (w : Word) (a b : BitVec C.numW) (r : Regs α),
    (block C w a b r).2.err = true → (block C w a b r).1 = r) ∧
  (∀ (s t : State) (c : Command) (rest : List PortEvent) (d : Word),
    s.queue = .command c :: rest → step s = .next t → t.rsp = some ⟨true, d⟩ →
      t.regs = s.regs ∧ 1 ≤ d.toNat ∧ d.toNat ≤ 5)

/-- R211 to R214: which code a command reports, the first that applies, and that it reports none where none applies. -/
def Obligations.RejectReportsTheFirstCode : Prop :=
  ∀ (s : State) (c : Command) (rest : List PortEvent), s.queue = .command c :: rest →
    ∃ (t : State) (r : Response 32), step s = .next t ∧ t.rsp = some r ∧
      r.err = (match decode c.word with
        | .error _ => true
        | .ok (.wrr a) => !((regAt? a).isSome && decide (a < 0x80) && operandsFinite (.wrr a) c.a c.b)
        | .ok (.rdr a) => !(regAt? a).isSome
        | .ok i => !operandsFinite i c.a c.b) ∧
      (r.err = true → r.data = (match decode c.word with
        | .error .illegalOp => 1
        | .error _ => 2
        | .ok (.wrr a) => if (regAt? a).isNone then 3 else if 0x80 ≤ a then 4 else 5
        | .ok (.rdr _) => 3
        | .ok _ => 5))

/-- R210, R215: no command, no value and no sequence of them makes CORE stop. -/
def Obligations.CoreNeverStops : Prop :=
  ∀ (n : Nat) (s : State), ∃ t, Sys2Proof.core.run n s = .next t

/-! ### Invariants of the machine -/

/-- R11: `Num` has no other values: every register keeps holding a binary32 number, whatever the command, the operands and the free values. -/
def Obligations.StepKeepsBinary32Registers : Prop :=
  ∀ s t : State, regsWf s.regs = true → step s = .next t → regsWf t.regs = true

/-- R34, the part that needs no nominal range, in binary32: phases in [0, 1), increments and times not negative, `NOISE.rng` not 0. -/
def Obligations.StepKeepsTheSignalInvariant : Prop :=
  ∀ s t : State, regsWf s.regs = true → signalInv (binary32 0) s.regs = true → step s = .next t →
    signalInv (binary32 0) t.regs = true

/-- R34, R120, in binary32: with the two sustain parameters in [0, 1] every envelope level stays in [0, 1]. -/
def Obligations.StepKeepsLevelsInUnitRange : Prop :=
  ∀ s t : State, regsWf s.regs = true → signalInv (binary32 0) s.regs = true →
    unitRange (binary32 0) s.regs.par.amp.sustain = true → unitRange (binary32 0) s.regs.par.flt.adsr.sustain = true →
    levelInv (binary32 0) s.regs = true → step s = .next t → levelInv (binary32 0) t.regs = true

/-- The reset state meets the invariants of the three statements before this one, and R34's in the reference number system; the parameters of
both configurations keep the constraints of R6 and U19. -/
def Obligations.ResetMeetsTheInvariants : Prop :=
  regsWf State.reset.regs = true ∧ signalInv (binary32 0) State.reset.regs = true ∧
  levelInv (binary32 0) State.reset.regs = true ∧ coreInv reference (resetRegs reference) = true ∧
  (∀ n, admissible (binary32Port n).toConfig = true) ∧ admissible reference = true

/-- R6, R8, R10, R82, R83: the machine is the configurable block at the default implementation, for a command and for a step on a presented
command; and on finite operands a command of the machine is the command on values in binary32, with the result encoded. -/
def Obligations.ExecAgreesWithTheValueLevel : Prop :=
  (∀ (i : Instr) (s : State),
    let x := runCommand (binary32Port s.count) i s.cmdA s.cmdB s.regs
    exec i s = .next { s with regs := x.1, rsp := some x.2 }) ∧
  (∀ (s : State) (c : Command) (rest : List PortEvent), s.queue = .command c :: rest →
    let x := block (binary32Port (s.count + 1)) c.word c.a c.b s.regs
    step s = .next ⟨x.1, c.a, c.b, some x.2, rest, s.count + 1⟩) ∧
  (∀ (i : Instr) (s : State) (a b : Num32), numOfWord s.cmdA = some a → numOfWord s.cmdB = some b →
    let res := apply s.config i ⟨a, b, s.cmdA⟩ s.regs
    exec i s = .next { s with regs := res.1, rsp := some (responseOf (isBypass i s.regs) s.cmdA res.2) })

/-! ### The number systems -/

/-- R10: in range, each operation gives the exact result rounded to nearest, ties to even; so does a literal; `floor` is exact. -/
def Obligations.OperationsRoundToNearestEven : Prop :=
  (∀ (n : Nat) (x y : Num32), isBinary32 x = true → isBinary32 y = true →
    (|numVal x + numVal y| < overflowBound → nearestEven (numVal x + numVal y) ((binary32 n).add x y)) ∧
    (|numVal x - numVal y| < overflowBound → nearestEven (numVal x - numVal y) ((binary32 n).sub x y)) ∧
    (|numVal x * numVal y| < overflowBound → nearestEven (numVal x * numVal y) ((binary32 n).mul x y)) ∧
    (numVal y ≠ 0 → |numVal x / numVal y| < overflowBound → nearestEven (numVal x / numVal y) ((binary32 n).div x y)) ∧
    numVal ((binary32 n).floor x) = (⌊numVal x⌋ : ℚ) ∧ isBinary32 ((binary32 n).floor x) = true) ∧
  (∀ (n : Nat) (k : Int) (d : Nat), 0 < d → |(k : ℚ) / d| < overflowBound → nearestEven ((k : ℚ) / d) ((binary32 n).lit k d))

/-- R11, R23, R62: a finite word and the number it denotes determine each other, but for 0x80000000, which denotes 0; 0 is the all-zero word;
the words that denote none are those with bits 30:23 all ones. -/
def Obligations.BusWordsAndNumbersCorrespond : Prop :=
  (∀ w : Word, numOfWord w = none ↔ w.extractLsb' 23 8 = 0xFF) ∧
  (∀ (w : Word) (x : Num32), numOfWord w = some x → isBinary32 x = true ∧ (w ≠ 0x80000000 → wordOfNum x = w)) ∧
  (∀ x : Num32, isBinary32 x = true → numOfWord (wordOfNum x) = some x) ∧
  numOfWord 0x80000000 = some ⟨0⟩ ∧ wordOfNum ⟨0⟩ = 0 ∧
  (∀ w x, expField w ≠ 255 → expField w ≠ 0 → numOfWord w = some x →
    numVal x = (if w.getLsbD 31 then -1 else 1) * (1 + (fracField w : ℚ) / 2 ^ 23) * 2 ^ ((expField w : ℤ) - 127))

/-- R12 to R16 in binary32, whatever the free values are. -/
def Obligations.Binary32FunctionsHaveTheirNamedProperties : Prop :=
  ∀ n : Nat,
    let C := binary32 n
    (C.sin2pi (lit32 0 1) = lit32 0 1 ∧ C.sin2pi (lit32 1 4) = lit32 1 1 ∧ C.sin2pi (lit32 1 2) = lit32 0 1 ∧
      C.sin2pi (lit32 3 4) = lit32 (-1) 1) ∧
    (∀ p, 0 ≤ numVal p → numVal p < 1 → |numVal (C.sin2pi p)| ≤ 1 ∧
      (numVal p ≤ 1 / 2 → 0 ≤ numVal (C.sin2pi p)) ∧ (1 / 2 ≤ numVal p → numVal (C.sin2pi p) ≤ 0)) ∧
    C.tanh ⟨0⟩ = ⟨0⟩ ∧ (∀ x, numVal (C.tanh ⟨-x.units⟩) = -numVal (C.tanh x)) ∧
    (∀ x y, numVal x ≤ numVal y → numVal (C.tanh x) ≤ numVal (C.tanh y)) ∧ (∀ x, |numVal (C.tanh x)| ≤ 1) ∧
    (∀ k : Int, -16 ≤ k → k ≤ 16 → numVal (C.exp2 (lit32 k 1)) = (2 : ℚ) ^ k) ∧ (∀ x, 0 < numVal (C.exp2 x)) ∧
    (∀ x y, isBinary32 x = true → isBinary32 y = true → numVal x ≤ numVal y → numVal (C.exp2 x) ≤ numVal (C.exp2 y)) ∧
    C.tanpi (lit32 1 4) = lit32 1 1 ∧ (∀ x, 0 < numVal x → numVal x < 1 / 2 → 0 < numVal (C.tanpi x)) ∧
    (∀ x y, 0 < numVal x → numVal x ≤ numVal y → numVal y < 1 / 2 → numVal (C.tanpi x) ≤ numVal (C.tanpi y)) ∧
    6.2831 < numVal C.twoPi ∧ numVal C.twoPi < 6.2832

/-- R12 to R16 in the reference number system. -/
def Obligations.ReferenceFunctionsHaveTheirNamedProperties : Prop :=
  let C := reference
  (C.sin2pi 0 = 0 ∧ C.sin2pi (1 / 4) = 1 ∧ C.sin2pi (1 / 2) = 0 ∧ C.sin2pi (3 / 4) = -1) ∧
  (∀ p, 0 ≤ p → p < 1 → |C.sin2pi p| ≤ 1 ∧ (p ≤ 1 / 2 → 0 ≤ C.sin2pi p) ∧ (1 / 2 ≤ p → C.sin2pi p ≤ 0)) ∧
  C.tanh 0 = 0 ∧ (∀ x, C.tanh (-x) = -C.tanh x) ∧ (∀ x y, x ≤ y → C.tanh x ≤ C.tanh y) ∧ (∀ x, |C.tanh x| < 1) ∧
  (∀ k : Int, C.exp2 (k : ℝ) = (2 : ℝ) ^ k) ∧ (∀ x, 0 < C.exp2 x) ∧ (∀ x y, x ≤ y → C.exp2 x ≤ C.exp2 y) ∧
  (∀ x y, C.exp2 (x + y) = C.exp2 x * C.exp2 y) ∧
  C.tanpi (1 / 4) = 1 ∧ (∀ x, 0 < x → x < 1 / 2 → 0 < C.tanpi x) ∧
  (∀ x y, 0 < x → x ≤ y → y < 1 / 2 → C.tanpi x ≤ C.tanpi y) ∧
  C.twoPi = 2 * Real.pi ∧ 6.2831 < C.twoPi ∧ C.twoPi < 6.2832

/-! ### Properties in the reference number system -/

/-- R34: every command under the nominal ranges keeps the invariant, from every state that meets it; the reset state meets it; so it holds after
any sequence of commands from reset. -/
def Obligations.ReferenceRunKeepsTheCoreInvariant : Prop :=
  (∀ (i : Instr) (o : Operands ℝ) (r : Regs ℝ),
    nominalParams reference r.par = true → nominalOperands reference i o = true → coreInv reference r = true →
      coreInv reference (apply reference i o r).1 = true) ∧
  coreInv reference (resetRegs reference) = true ∧
  (∀ cmds : List (Instr × Operands ℝ), nominalRun reference cmds (resetRegs reference) →
    coreInv reference (valueRun reference cmds (resetRegs reference)) = true)

/-- R142: every waveform is within [-1, 1], so a sample of OSC.NEXT is within the gain; the phase is in [0, 1) after OSC.START and after
OSC.NEXT. -/
def Obligations.ReferenceWavesAreBounded : Prop :=
  (∀ (sel : BitVec 3) (p inc drive : ℝ), 0 ≤ p → p < 1 → 0 ≤ inc → |wave reference sel p inc drive| ≤ 1) ∧
  (∀ (k : OscId) (r : Regs ℝ) (v : ℝ), 0 ≤ (oscRegs r k).inc → 0 ≤ (oscParams r k).gain →
    (oscNextRegs reference k r).2 = .num v → |v| ≤ (oscParams r k).gain) ∧
  (∀ (k : OscId) (r : Regs ℝ) (f : ℝ),
    phaseOk reference (oscRegs (oscNextRegs reference k r).1 k).phase = true ∧
    phaseOk reference (oscRegs (oscStartRegs reference k f r).1 k).phase = true)

/-- R156: under the nominal ranges each draw is in [-1, 1), `NOISE.lp` stays in [-1, 1] and the sample is within the gain; disabled, it is 0. -/
def Obligations.ReferenceNoiseIsBounded : Prop :=
  (∀ x : BitVec 32, -1 ≤ rngValue reference x ∧ rngValue reference x < 1) ∧
  (∀ (r : Regs ℝ) (v : ℝ), nominalParams reference r.par = true → coreInv reference r = true →
    (noiseNextRegs reference r).2 = .num v →
      |v| ≤ r.par.noise.gain ∧ |(noiseNextRegs reference r).1.noise.lp| ≤ 1 ∧ (r.par.noise.en = 0 → v = 0))

/-- R120 (c): after note-off the ramp is linear in the elapsed time and the level is 0 and the stage Idle at the first step whose elapsed time
reaches the release time, whatever the stage was. -/
def Obligations.ReleaseEndsInTheReleaseTime : Prop :=
  ∀ (e : Env ℝ) (p : Adsr ℝ) (dt : ℝ) (n : Nat), 0 < dt → 0 < n →
    let rel := max p.release (1 / 2 ^ 20)
    let off := envOff reference e
    (n * dt < rel → envAfter reference p dt n off =
      ⟨.release, n * dt, e.level * (1 - n * dt / rel), e.level⟩) ∧
    ((n - 1 : ℕ) * dt < rel → rel ≤ n * dt → envAfter reference p dt n off = ⟨.idle, 0, 0, e.level⟩)

/-- R195: for fixed coefficients the filter is linear, and the state (0, c) is its one fixed point at the constant input c, with low-pass
output c and high-pass output 0. -/
def Obligations.FilterIsLinearWithItsFixedPoint : Prop :=
  ∀ g r2 : ℝ, 0 < g → 0 < r2 →
    (∀ c : ℝ, svfStep reference g r2 c ⟨0, c⟩ = (⟨0, c⟩, c, 0)) ∧
    (∀ (c : ℝ) (f : FltState ℝ), (svfStep reference g r2 c f).1 = f → f = ⟨0, c⟩) ∧
    (∀ (a b x y : ℝ) (f f' : FltState ℝ),
      let u := svfStep reference g r2 x f
      let u' := svfStep reference g r2 y f'
      svfStep reference g r2 (a * x + b * y) ⟨a * f.s1 + b * f'.s1, a * f.s2 + b * f'.s2⟩ =
        (⟨a * u.1.s1 + b * u'.1.s1, a * u.1.s2 + b * u'.1.s2⟩, a * u.2.1 + b * u'.2.1, a * u.2.2 + b * u'.2.2))

/-- R193, R27, in exact arithmetic and for all registers and operands: the cutoff is a positive part of the sample rate, at most 7/16 of it, the
resonance is in [1/2, 16], the coefficient is positive and the divisor greater than 1. -/
def Obligations.FilterCoefficientsAreInTheirDomain : Prop :=
  ∀ (r : Regs ℝ) (tf tq : Bool) (e lfo : ℝ),
    let ratio := fltCutoff reference r tf e lfo / fsEff reference r
    let q := fltRes reference r tq lfo
    let g := reference.tanpi ratio
    1 ≤ fsEff reference r ∧ 0 < ratio ∧ ratio ≤ 7 / 16 ∧ 1 / 2 ≤ q ∧ q ≤ 16 ∧ 0 < g ∧ 1 < fltDenom reference g (1 / q)

/-- R15, U14, in binary32 with its rounding: TANPI is called inside its domain for all registers that hold numbers. -/
def Obligations.FilterTangentStaysInItsDomain : Prop :=
  ∀ (n : Nat) (r : Regs Num32) (tf : Bool) (e lfo : Num32), regsWf r = true →
    let C := binary32 n
    let ratio := C.div (fltCutoff C r tf e lfo) (fsEff C r)
    0 < numVal ratio ∧ numVal ratio < 1 / 2

/-! ### What commands do not read or share -/

/-- R31: the sample commands of the oscillators, the noise generator and the LFO do not read a latched parameter; changing FS, the octave
and cents offsets, the LFO frequency, the colour and the duration changes neither their answer nor the registers they leave. -/
def Obligations.LatchedParametersAreNotReadLive : Prop :=
  ∀ (α : Type) (C : Config α) (i : Instr) (o : Operands α) (r : Regs α) (fs oct1 cents1 oct2 cents2 freq color dur : α),
    (i = .oscNext .osc1 ∨ i = .oscNext .osc2 ∨ i = .noiseNext ∨ i = .lfoNext) →
    let latched := fun p : ParamRegs α =>
      { p with
        fs := fs
        o1 := { p.o1 with oct := oct1, cents := cents1 }
        o2 := { p.o2 with oct := oct2, cents := cents2 }
        lfo := { p.lfo with freq := freq }
        noise := { p.noise with color := color, dur := dur } }
    let res := apply C i o r
    apply C i o { r with par := latched r.par } = ({ res.1 with par := latched res.1.par }, res.2)

/-- R130: a command on one oscillator neither reads nor writes the other's registers. -/
def Obligations.OscillatorsShareNoState : Prop :=
  ∀ (α : Type) (C : Config α) (i : Instr) (o : Operands α) (r : Regs α) (x : OscState α) (q : OscParams α),
    let res := apply C i o r
    ((i = .oscStart .osc1 ∨ (∃ tf tc, i = .oscUpd .osc1 tf tc) ∨ i = .oscNext .osc1) →
      apply C i o { r with osc2 := x, par := { r.par with o2 := q } } =
        ({ res.1 with osc2 := x, par := { res.1.par with o2 := q } }, res.2) ∧ res.1.osc2 = r.osc2) ∧
    ((i = .oscStart .osc2 ∨ (∃ tf tc, i = .oscUpd .osc2 tf tc) ∨ i = .oscNext .osc2) →
      apply C i o { r with osc1 := x, par := { r.par with o1 := q } } =
        ({ res.1 with osc1 := x, par := { res.1.par with o1 := q } }, res.2) ∧ res.1.osc1 = r.osc1)

/-- R240: `ENV.NEXT` is independent of all the other commands of a tick: in either order the registers and both answers are the same. -/
def Obligations.EnvNextCommutesWithTheOtherUnits : Prop :=
  ∀ (α : Type) (C : Config α) (i : Instr) (o o' : Operands α) (r : Regs α),
    (∀ a, i ≠ .wrr a) → (∀ a, i ≠ .rdr a) → i ≠ .envOn → i ≠ .envOff → i ≠ .envNext → i ≠ .envClosed →
      (apply C .envNext o (apply C i o' r).1).1 = (apply C i o' (apply C .envNext o r).1).1 ∧
      (apply C .envNext o (apply C i o' r).1).2 = (apply C .envNext o r).2 ∧
      (apply C i o' (apply C .envNext o r).1).2 = (apply C i o' r).2

/-! ### From reset, and a note -/

/-- R231: what each command that returns a result answers straight after reset. -/
def Obligations.ResetStateIsSilent : Prop :=
  ∀ (i : Instr) (a b : Word), numOfWord a ≠ none → numOfWord b ≠ none →
    let s := { State.reset with cmdA := a, cmdB := b }
    let answers := fun (w : Word) => ∃ t, exec i s = .next t ∧ t.rsp = some ⟨false, w⟩
    (i = .envNext → answers 0) ∧ (i = .envClosed → answers 1) ∧ (∀ k, i = .oscNext k → answers 0) ∧
    (i = .noiseNext → answers 0) ∧ (i = .lfoNext → answers 0) ∧ (i = .lfoQry → answers 0) ∧
    (∀ tf tq, i = .fltApply tf tq → answers a)

/-- R233: what the five commands of NOTEON establish, and that they leave every other register. -/
def Obligations.NoteOnEstablishesTheNote : Prop :=
  ∀ (s : State) (w : Word) (f : Num32) (rest : List PortEvent), numOfWord w = some f → s.queue = noteOn w ++ rest →
    ∃ t, Sys2Proof.core.run 5 s = .next t ∧ t.queue = rest ∧
      t.regs = { s.regs with
        osc1 := { s.regs.osc1 with base := f, phase := ⟨0⟩ }
        osc2 := { s.regs.osc2 with base := f, phase := ⟨0⟩ }
        noise := { s.regs.noise with lp := ⟨0⟩ }
        envN := ⟨.attack, ⟨0⟩, ⟨0⟩, ⟨0⟩⟩
        envF := ⟨.attack, ⟨0⟩, ⟨0⟩, ⟨0⟩⟩
        flt := ⟨⟨0⟩, ⟨0⟩⟩
        envA := ⟨.attack, ⟨0⟩, ⟨0⟩, ⟨0⟩⟩ }
end

