-- ==== Sys2Proof/Laws/Binary32.lean ====
section
/-! SUPPORT. Rounding to binary32: what `roundMag` gives is always a number with 24 significant bits, and rounding never
crosses such a number. Bounds and signs of the operations follow. -/

namespace Sys2Proof.Machine

/-- A magnitude with at most 24 significant bits. -/
abbrev SigBits (m : Nat) : Prop := spacing m ∣ m

theorem spacing_pos (m : Nat) : 0 < spacing m := Nat.two_pow_pos _

theorem log2_mono {a b : Nat} (h : a ≤ b) : Nat.log2 a ≤ Nat.log2 b := by
  simp only [Nat.log2_eq_log_two]; exact Nat.log_mono_right h

theorem spacing_dvd {a b : Nat} (h : a ≤ b) : spacing a ∣ spacing b :=
  Nat.pow_dvd_pow 2 (Nat.sub_le_sub_right (log2_mono h) 23)

theorem sigBits_mul_pow {q : Nat} (e : Nat) (hq : q ≤ 2 ^ 24) : SigBits (q * 2 ^ e) := by
  rcases Nat.eq_zero_or_pos q with rfl | hpos
  · simp [SigBits]
  have hm : q * 2 ^ e ≠ 0 := by positivity
  rcases Nat.lt_or_ge q (2 ^ 24) with hlt | hge
  · have hlog : Nat.log2 (q * 2 ^ e) < 24 + e := by
      rw [Nat.log2_lt hm, Nat.pow_add]
      exact Nat.mul_lt_mul_of_pos_right hlt (Nat.two_pow_pos e)
    exact (Nat.pow_dvd_pow 2 (by omega : Nat.log2 (q * 2 ^ e) - 23 ≤ e)).trans (Nat.dvd_mul_left _ _)
  · obtain rfl : q = 2 ^ 24 := by omega
    rw [SigBits, ← Nat.pow_add, spacing, Nat.log2_two_pow]
    exact Nat.pow_dvd_pow 2 (by omega)

/-- The quotient `roundMag` works with has at most 24 bits. -/
theorem quot_lt (n d : Nat) : n / (d * spacing (n / d)) < 2 ^ 24 := by
  rw [← Nat.div_div_eq_div_mul, Nat.div_lt_iff_lt_mul (spacing_pos _), spacing, ← Nat.pow_add]
  exact Nat.lt_of_lt_of_le Nat.lt_log2_self (Nat.pow_le_pow_right (by omega) (by omega))

/-- Where the spacing is more than one unit, the quotient has exactly 24 bits. -/
theorem quot_ge {n d : Nat} (h : spacing (n / d) ≠ 1) : 2 ^ 23 ≤ n / (d * spacing (n / d)) := by
  have hlog : 23 ≤ Nat.log2 (n / d) := by
    by_contra hc
    exact h (by simp [spacing, Nat.sub_eq_zero_of_le (by omega : Nat.log2 (n / d) ≤ 23)])
  have h0 : n / d ≠ 0 := by
    intro h0; rw [h0] at hlog; simp at hlog
  rw [← Nat.div_div_eq_div_mul, Nat.le_div_iff_mul_le (spacing_pos _), spacing, ← Nat.pow_add,
    Nat.add_sub_cancel' hlog]
  exact Nat.log2_self_le h0

/-- The two candidates of rounding. -/
theorem roundMag_cases (n d : Nat) :
    (roundMag n d = n / (d * spacing (n / d)) * spacing (n / d) ∧
      2 * (n % (d * spacing (n / d))) ≤ d * spacing (n / d) ∧
      (2 * (n % (d * spacing (n / d))) = d * spacing (n / d) → n / (d * spacing (n / d)) % 2 = 0)) ∨
    (roundMag n d = (n / (d * spacing (n / d)) + 1) * spacing (n / d) ∧
      d * spacing (n / d) ≤ 2 * (n % (d * spacing (n / d))) ∧
      (2 * (n % (d * spacing (n / d))) = d * spacing (n / d) → n / (d * spacing (n / d)) % 2 = 1)) := by
  unfold roundMag
  simp only []
  split <;> rename_i h
  · right; refine ⟨rfl, by omega, by omega⟩
  · left; refine ⟨rfl, by omega, by omega⟩

theorem sigBits_roundMag (n d : Nat) : SigBits (roundMag n d) := by
  have hq := quot_lt n d
  rcases roundMag_cases n d with ⟨h, -⟩ | ⟨h, -⟩ <;> rw [h, spacing]
  · exact sigBits_mul_pow _ hq.le
  · exact sigBits_mul_pow _ hq

/-- A number with 24 significant bits at or above the quotient's lower candidate is a multiple of the spacing. -/
theorem spacing_dvd_of_ge {n d B : Nat} (hB : SigBits B) (h : n / (d * spacing (n / d)) * spacing (n / d) ≤ B) :
    spacing (n / d) ∣ B := by
  by_cases h1 : spacing (n / d) = 1
  · rw [h1]; exact one_dvd _
  have hge := quot_ge h1
  refine dvd_trans ?_ hB
  have hle : 2 ^ 23 * spacing (n / d) ≤ B := (Nat.mul_le_mul_right _ hge).trans h
  rw [spacing, ← Nat.pow_add] at hle
  have h2 := log2_mono hle
  rw [Nat.log2_two_pow] at h2
  exact Nat.pow_dvd_pow 2 (by omega)

/-- Rounding does not go above a number with 24 significant bits. -/
theorem roundMag_le {n d B : Nat} (hd : 0 < d) (hB : SigBits B) (h : n ≤ B * d) : roundMag n d ≤ B := by
  have hu := spacing_pos (n / d)
  have hD : 0 < d * spacing (n / d) := Nat.mul_pos hd hu
  have hdm := Nat.div_add_mod n (d * spacing (n / d))
  set u := spacing (n / d) with hudef
  have hq : n / (d * u) * u ≤ B := by
    have h1 : n / (d * u) * u * d ≤ B * d := by
      calc n / (d * u) * u * d = d * u * (n / (d * u)) := by ring
        _ ≤ n := by omega
        _ ≤ B * d := h
    exact Nat.le_of_mul_le_mul_right h1 hd
  rcases roundMag_cases n d with ⟨hr, -⟩ | ⟨hr, h2, -⟩ <;> rw [hr, ← hudef]
  · exact hq
  · rw [← hudef] at h2
    obtain ⟨c, hc⟩ := spacing_dvd_of_ge hB (hudef ▸ hq)
    rw [← hudef] at hc
    have hlt : n / (d * u) * u < B := by
      have h1 : n / (d * u) * u * d < B * d := by
        calc n / (d * u) * u * d = d * u * (n / (d * u)) := by ring
          _ < n := by omega
          _ ≤ B * d := h
      exact Nat.lt_of_mul_lt_mul_right h1
    rw [hc, Nat.mul_comm u c] at hlt ⊢
    exact Nat.mul_le_mul_right _ (Nat.lt_of_mul_lt_mul_right hlt)

/-- Rounding does not go below a number with 24 significant bits. -/
theorem le_roundMag {n d B : Nat} (hd : 0 < d) (hB : SigBits B) (h : B * d ≤ n) : B ≤ roundMag n d := by
  have hu := spacing_pos (n / d)
  set u := spacing (n / d) with hudef
  have hlow : B ≤ n / (d * u) * u := by
    by_cases hle : n / (d * u) * u ≤ B
    · obtain ⟨c, hc⟩ := spacing_dvd_of_ge hB (hudef ▸ hle)
      rw [← hudef] at hc
      have hcd : c ≤ n / (d * u) := by
        rw [Nat.le_div_iff_mul_le (Nat.mul_pos hd hu)]
        calc c * (d * u) = u * c * d := by ring
          _ ≤ n := hc ▸ h
      calc B = c * u := by rw [hc, Nat.mul_comm]
        _ ≤ _ := Nat.mul_le_mul_right _ hcd
    · omega
  refine hlow.trans ?_
  rcases roundMag_cases n d with ⟨hr, -⟩ | ⟨hr, -⟩ <;> rw [hr, ← hudef]
  exact Nat.mul_le_mul_right _ (Nat.le_succ _)

/-- A number with 24 significant bits is its own rounding. -/
theorem roundMag_self {m d : Nat} (hd : 0 < d) (hm : SigBits m) : roundMag (m * d) d = m :=
  Nat.le_antisymm (roundMag_le hd hm (Nat.le_refl _)) (le_roundMag hd hm (Nat.le_refl _))

/-- Rounding is monotone. -/
theorem roundMag_mono {a b c d : Nat} (hb : 0 < b) (hd : 0 < d) (h : a * d ≤ c * b) :
    roundMag a b ≤ roundMag c d := by
  have hfl : a / b ≤ c / d := by
    rw [Nat.le_div_iff_mul_le hd]
    exact Nat.le_of_mul_le_mul_right
      (calc a / b * d * b = a / b * b * d := by ring
        _ ≤ a * d := Nat.mul_le_mul_right _ (Nat.div_mul_le_self a b)
        _ ≤ c * b := h) hb
  by_cases hs : spacing (a / b) = spacing (c / d)
  · set u := spacing (c / d) with hu
    have hu0 : 0 < u := spacing_pos _
    have hB : 0 < b * u := Nat.mul_pos hb hu0
    have hD : 0 < d * u := Nat.mul_pos hd hu0
    have hda := Nat.div_add_mod a (b * u)
    have hdc := Nat.div_add_mod c (d * u)
    have hqq : a / (b * u) ≤ c / (d * u) := by
      rw [← Nat.div_div_eq_div_mul, ← Nat.div_div_eq_div_mul]
      exact Nat.div_le_div_right hfl
    rcases Nat.lt_or_ge (a / (b * u)) (c / (d * u)) with hlt | hge
    · have h1 : roundMag a b ≤ (a / (b * u) + 1) * u := by
        rcases roundMag_cases a b with ⟨hr, -⟩ | ⟨hr, -⟩ <;> rw [hr, hs]
        exact Nat.mul_le_mul_right _ (Nat.le_succ _)
      have h2 : c / (d * u) * u ≤ roundMag c d := by
        rcases roundMag_cases c d with ⟨hr, -⟩ | ⟨hr, -⟩ <;> rw [hr, ← hu]
        exact Nat.mul_le_mul_right _ (Nat.le_succ _)
      exact h1.trans ((Nat.mul_le_mul_right _ hlt).trans h2)
    · have hq : a / (b * u) = c / (d * u) := by omega
      have hr : a % (b * u) * d ≤ c % (d * u) * b := by
        have e1 : a * d = b * u * (a / (b * u)) * d + a % (b * u) * d := by rw [← Nat.add_mul, hda]
        have e2 : c * b = d * u * (c / (d * u)) * b + c % (d * u) * b := by rw [← Nat.add_mul, hdc]
        have e3 : b * u * (a / (b * u)) * d = d * u * (c / (d * u)) * b := by rw [hq]; ring
        omega
      rcases roundMag_cases a b with ⟨ha, -⟩ | ⟨ha, ha2, ha3⟩ <;>
        rcases roundMag_cases c d with ⟨hc, hc2, hc3⟩ | ⟨hc, -⟩ <;> rw [ha, hc, hs, ← hu, hq]
      · exact Nat.mul_le_mul_right _ (Nat.le_succ _)
      · rw [hs] at ha2 ha3
        rw [← hu] at hc2 hc3
        have h1 : b * u * d ≤ 2 * (c % (d * u)) * b := by
          calc b * u * d ≤ 2 * (a % (b * u)) * d := Nat.mul_le_mul_right _ ha2
            _ = 2 * (a % (b * u) * d) := by ring
            _ ≤ 2 * (c % (d * u) * b) := Nat.mul_le_mul_left _ hr
            _ = _ := by ring
        have h2 : d * u ≤ 2 * (c % (d * u)) :=
          Nat.le_of_mul_le_mul_right (by linarith [h1] : d * u * b ≤ 2 * (c % (d * u)) * b) hb
        have h3 : 2 * (c % (d * u)) = d * u := Nat.le_antisymm hc2 h2
        have h4 : 2 * (a % (b * u)) = b * u := by
          refine Nat.le_antisymm ?_ ha2
          have : 2 * (a % (b * u)) * d ≤ b * u * d := by
            calc 2 * (a % (b * u)) * d = 2 * (a % (b * u) * d) := by ring
              _ ≤ 2 * (c % (d * u) * b) := Nat.mul_le_mul_left _ hr
              _ = 2 * (c % (d * u)) * b := by ring
              _ = b * u * d := by rw [h3]; ring
          exact Nat.le_of_mul_le_mul_right this hd
        have := ha3 h4
        have := hc3 h3
        omega
  · have hlog : Nat.log2 (a / b) - 23 < Nat.log2 (c / d) - 23 := by
      have h1 := log2_mono hfl
      by_contra hc
      exact hs (by simp only [spacing]; congr 1; omega)
    set k := Nat.log2 (c / d) with hk
    have hP : SigBits (2 ^ k) := by simpa using sigBits_mul_pow (q := 1) k (by norm_num)
    have hc0 : c / d ≠ 0 := by
      intro h0; rw [h0] at hk; simp at hk; omega
    refine (roundMag_le hb hP ?_).trans (le_roundMag hd hP ?_)
    · have : a / b < 2 ^ k := Nat.lt_of_lt_of_le Nat.lt_log2_self (Nat.pow_le_pow_right (by omega) (by omega))
      exact ((Nat.div_lt_iff_lt_mul hb).1 this).le
    · exact (Nat.le_div_iff_mul_le hd).1 (Nat.log2_self_le hc0)

/-! ### The operations -/

theorem sigBits_maxMag : SigBits maxMag := sigBits_mul_pow 253 (by norm_num)

theorem sigBits_unitsOne : SigBits unitsOne := by
  simpa [unitsOne] using sigBits_mul_pow (q := 1) 149 (by norm_num)

theorem isBinary32_iff (x : Num32) :
    isBinary32 x = true ↔ SigBits x.units.natAbs ∧ x.units.natAbs ≤ maxMag := by
  simp [isBinary32, SigBits, Nat.dvd_iff_mod_eq_zero]

@[simp] theorem withSign_natAbs (n : Int) (m : Nat) : (withSign n m).units.natAbs = m := by
  unfold withSign; split <;> simp

theorem isBinary32_withSign {n : Int} {m : Nat} (h : SigBits m) (hm : m ≤ maxMag) : isBinary32 (withSign n m) = true := by
  rw [isBinary32_iff, withSign_natAbs]; exact ⟨h, hm⟩

theorem isBinary32_toBinary32 (v : Int) : isBinary32 (toBinary32 v) = true :=
  isBinary32_withSign (sigBits_roundMag _ _) (roundMag_le (by decide) sigBits_maxMag (by omega))

theorem isBinary32_finishOp (c : Nat) (op : NumOp) (x y : Num32) (n : Int) (d : Nat) :
    isBinary32 (finishOp c op x y n d) = true := by
  unfold finishOp
  split
  · exact isBinary32_withSign (sigBits_roundMag _ _) ‹_›
  · exact isBinary32_toBinary32 _

theorem isBinary32_lit32 (n : Int) (d : Nat) : isBinary32 (lit32 n d) = true := by
  refine isBinary32_withSign ?_ (Nat.min_le_right _ _)
  rcases Nat.le_total (roundMag (n.natAbs * unitsOne) d) maxMag with h | h
  · rw [Nat.min_eq_left h]; exact sigBits_roundMag _ _
  · rw [Nat.min_eq_right h]; exact sigBits_maxMag

theorem isBinary32_add32 (c : Nat) (x y : Num32) : isBinary32 (add32 c x y) = true := isBinary32_finishOp _ _ _ _ _ _
theorem isBinary32_sub32 (c : Nat) (x y : Num32) : isBinary32 (sub32 c x y) = true := isBinary32_finishOp _ _ _ _ _ _
theorem isBinary32_mul32 (c : Nat) (x y : Num32) : isBinary32 (mul32 c x y) = true := isBinary32_finishOp _ _ _ _ _ _

theorem isBinary32_div32 (c : Nat) (x y : Num32) : isBinary32 (div32 c x y) = true := by
  unfold div32
  split
  · exact isBinary32_toBinary32 _
  · exact isBinary32_finishOp _ _ _ _ _ _

/-- A quotient between 0 and a number of binary32 rounds to a number between 0 and it, with no overflow. -/
theorem finishOp_bounds {c : Nat} {op : NumOp} {x y : Num32} {n : Int} {d B : Nat} (hd : 0 < d) (hB : SigBits B)
    (hmax : B ≤ maxMag) (h0 : 0 ≤ n) (h : n ≤ B * d) :
    0 ≤ (finishOp c op x y n d).units ∧ (finishOp c op x y n d).units ≤ B := by
  have hr : roundMag n.natAbs d ≤ B := roundMag_le hd hB (by zify; rwa [abs_of_nonneg h0])
  unfold finishOp
  rw [if_pos (hr.trans hmax)]
  unfold withSign
  rw [if_neg (by omega)]
  exact ⟨by simp, by simpa using hr⟩

/-- What an operation gives where it does not overflow. -/
theorem finishOp_eq {c : Nat} {op : NumOp} {x y : Num32} {n : Int} {d : Nat} (h : roundMag n.natAbs d ≤ maxMag) :
    finishOp c op x y n d = withSign n (roundMag n.natAbs d) := if_pos h

end Sys2Proof.Machine
end

