-- ==== Sys2Proof/Laws/Decode.lean ====
section
/-! SUPPORT. The opcode table: its rows do not overlap, and the row of an OP is found. -/

namespace Sys2Proof

theorem mem_opcodeRows (o : Opcode) : o ∈ opcodeRows := by cases o <;> decide

/-- No two rows have the same OP (R86). -/
theorem opcodeByte_injective {o p : Opcode} (h : opcodeByte o = opcodeByte p) : o = p := by
  revert h; cases o <;> cases p <;> decide

/-- A row is found by its own OP. -/
@[simp] theorem opcodeOf?_opcodeByte (o : Opcode) : opcodeOf? (opcodeByte o) = some o := by cases o <;> rfl

/-- The row found for an OP has that OP. -/
theorem opcodeByte_of_opcodeOf? {b : BitVec 8} {o : Opcode} (h : opcodeOf? b = some o) : opcodeByte o = b := by
  simpa using List.find?_some h

/-- No row is found for an OP outside the map (R89). -/
theorem opcodeOf?_eq_none {b : BitVec 8} (h : ∀ o, opcodeByte o ≠ b) : opcodeOf? b = none :=
  List.find?_eq_none.2 fun o _ => by simpa using h o

/-- What the decoder answers: the two rejects of R88 and R89, or the row's command. -/
theorem decode_cases (w : Word) :
    (opcodeOf? (fieldOp w) = none ∧ decode w = .error .illegalOp) ∨
    (∃ o, opcodeOf? (fieldOp w) = some o ∧ w &&& formatMask (opcodeFormat o) ≠ matchWord o ∧
      decode w = .error .reservedField) ∨
    (∃ o, opcodeOf? (fieldOp w) = some o ∧ w &&& formatMask (opcodeFormat o) = matchWord o ∧
      decode w = .ok (buildInstr o w)) := by
  unfold decode
  cases h : opcodeOf? (fieldOp w) with
  | none => exact .inl ⟨rfl, rfl⟩
  | some o =>
    by_cases hm : w &&& formatMask (opcodeFormat o) = matchWord o
    · exact .inr (.inr ⟨o, rfl, hm, if_pos hm⟩)
    · exact .inr (.inl ⟨o, rfl, hm, if_neg hm⟩)

/-- The fields of a row's word are within their bits. -/
theorem buildInstr_wf (o : Opcode) (w : Word) : (buildInstr o w).wf = true := by
  cases o <;> simp [buildInstr, Instr.wf, fieldAddr] <;> omega

/-- A row's command belongs to that row. -/
theorem opcodeOfInstr_buildInstr (o : Opcode) (w : Word) : opcodeOfInstr (buildInstr o w) = o := by cases o <;> rfl

end Sys2Proof
end

