-- ==== Sys2Proof/Laws/State.lean ====
section
/-! SUPPORT. The fields of a state after each update of it, each true by computation. -/

namespace Sys2Proof.Machine

/-! ### Accepting a command -/

section
variable (c : Command) (rest : List PortEvent) (s : State)
@[simp] theorem accept_regs : (accept c rest s).regs = s.regs := rfl
@[simp] theorem accept_cmdA : (accept c rest s).cmdA = c.a := rfl
@[simp] theorem accept_cmdB : (accept c rest s).cmdB = c.b := rfl
@[simp] theorem accept_rsp : (accept c rest s).rsp = none := rfl
@[simp] theorem accept_queue : (accept c rest s).queue = rest := rfl
@[simp] theorem accept_count : (accept c rest s).count = s.count + 1 := rfl

/-! ### A reset edge -/

@[simp] theorem resetEdge_regs : (resetEdge rest s).regs = State.reset.regs := rfl
@[simp] theorem resetEdge_cmdA : (resetEdge rest s).cmdA = 0 := rfl
@[simp] theorem resetEdge_cmdB : (resetEdge rest s).cmdB = 0 := rfl
@[simp] theorem resetEdge_rsp : (resetEdge rest s).rsp = none := rfl
@[simp] theorem resetEdge_queue : (resetEdge rest s).queue = rest := rfl
@[simp] theorem resetEdge_count : (resetEdge rest s).count = s.count := rfl
end

/-! ### Presenting a word -/

section
variable (s : State) (nbits w : Nat)
@[simp] theorem withFetchWord_regs : (s.withFetchWord nbits w).regs = s.regs := rfl
@[simp] theorem withFetchWord_cmdA : (s.withFetchWord nbits w).cmdA = s.cmdA := rfl
@[simp] theorem withFetchWord_cmdB : (s.withFetchWord nbits w).cmdB = s.cmdB := rfl
@[simp] theorem withFetchWord_rsp : (s.withFetchWord nbits w).rsp = s.rsp := rfl
@[simp] theorem withFetchWord_count : (s.withFetchWord nbits w).count = s.count := rfl
@[simp] theorem withFetchWord_queue : (s.withFetchWord nbits w).queue =
    .command ⟨BitVec.ofNat 32 (w % 2 ^ nbits), s.cmdA, s.cmdB⟩ :: s.queue := rfl
end

/-! ### The registers of one oscillator -/

section
variable {α : Type} (r : Regs α) (k : OscId) (o : OscState α)
@[simp] theorem setOscRegs_par : (setOscRegs r k o).par = r.par := by cases k <;> rfl
@[simp] theorem setOscRegs_envA : (setOscRegs r k o).envA = r.envA := by cases k <;> rfl
@[simp] theorem setOscRegs_noise : (setOscRegs r k o).noise = r.noise := by cases k <;> rfl
@[simp] theorem setOscRegs_envN : (setOscRegs r k o).envN = r.envN := by cases k <;> rfl
@[simp] theorem setOscRegs_lfo : (setOscRegs r k o).lfo = r.lfo := by cases k <;> rfl
@[simp] theorem setOscRegs_flt : (setOscRegs r k o).flt = r.flt := by cases k <;> rfl
@[simp] theorem setOscRegs_envF : (setOscRegs r k o).envF = r.envF := by cases k <;> rfl
@[simp] theorem oscRegs_setOscRegs : oscRegs (setOscRegs r k o) k = o := by cases k <;> rfl
@[simp] theorem oscRegs_setOscRegs_other {k' : OscId} (h : k' ≠ k) : oscRegs (setOscRegs r k o) k' = oscRegs r k' := by
  cases k <;> cases k' <;> first | rfl | exact absurd rfl h
end

/-! ### Completing a command -/

section
variable (s t : State) (x : Completion Num32 32) (h : complete s x = .next t)
include h
theorem regs_of_complete : t.regs = x.1 := by cases h; rfl
theorem rsp_of_complete : t.rsp = some x.2 := by cases h; rfl
theorem cmdA_of_complete : t.cmdA = s.cmdA := by cases h; rfl
theorem cmdB_of_complete : t.cmdB = s.cmdB := by cases h; rfl
theorem queue_of_complete : t.queue = s.queue := by cases h; rfl
theorem count_of_complete : t.count = s.count := by cases h; rfl
end

/-! ### The configuration of the machine -/

section
variable (s : State) (n : Nat)
theorem port_toConfig : s.port.toConfig = s.config := rfl
@[simp] theorem port_decode : s.port.decode = numOfWord := rfl
@[simp] theorem port_encode : s.port.encode = wordOfNum := rfl
theorem binary32_numW : (binary32 n).numW = 32 := rfl
end

/-! ### Writing a parameter register -/

section
variable {α : Type} {n : Nat} (r : Regs α) (p : ParamReg) (v : α) (w : BitVec n) (q : StateReg)
@[simp] theorem writeNum_par : (writeNum r p v).par = setNumParam r.par p v := rfl
@[simp] theorem writeInt_par : (writeInt r p w).par = setIntParam r.par p w := rfl
@[simp] theorem readState_writeNum : readState (writeNum r p v) q = readState r q := by cases q <;> rfl
@[simp] theorem readState_writeInt : readState (writeInt r p w) q = readState r q := by cases q <;> rfl
end

/-- The number system's comparisons and constants do not depend on the command's number. -/
@[simp] theorem binary32_le (n : Nat) (x y : Num32) : (binary32 n).le x y = decide (x.units ≤ y.units) := rfl
@[simp] theorem binary32_lt (n : Nat) (x y : Num32) : (binary32 n).lt x y = decide (x.units < y.units) := rfl
@[simp] theorem binary32_zero (n : Nat) : (binary32 n).zero = ⟨0⟩ := rfl
@[simp] theorem binary32_one (n : Nat) : (binary32 n).one = ⟨2 ^ 149⟩ := rfl
@[simp] theorem binary32_lit (n : Nat) : (binary32 n).lit = lit32 := rfl
@[simp] theorem binary32_add (n : Nat) : (binary32 n).add = add32 n := rfl
@[simp] theorem binary32_sub (n : Nat) : (binary32 n).sub = sub32 n := rfl
@[simp] theorem binary32_mul (n : Nat) : (binary32 n).mul = mul32 n := rfl
@[simp] theorem binary32_div (n : Nat) : (binary32 n).div = div32 n := rfl
@[simp] theorem binary32_floor (n : Nat) : (binary32 n).floor = floor32 := rfl
@[simp] theorem binary32_constants (n : Nat) : (binary32 n).toConstants = defaultConstants lit32 := rfl

end Sys2Proof.Machine
end

