-- ==== Sys2Proof/Laws/Ops.lean ====
section
/-! SUPPORT. One lemma for each shared operation, saying everything it can do. -/

namespace Sys2Proof.Machine

/-- The bus word of a value does not depend on the command's number. -/
theorem encodeVal_port (n : Nat) (v : RegVal Num32) : encodeVal (binary32Port n) v = wordOfVal v := by cases v <;> rfl

@[simp] theorem wordOfVal_num (v : Num32) : wordOfVal (.num v) = wordOfNum v := rfl
@[simp] theorem wordOfVal_int (w : Word) : wordOfVal (.int w) = w := BitVec.setWidth_eq w

/-- A response changes the registers and the response port, and nothing else. -/
theorem complete_respond (s : State) (regs : Regs Num32) (d : BitVec s.port.numW) :
    complete s (respond regs d) = .next { s with regs := regs, rsp := some ⟨false, d⟩ } := rfl

/-- A response with a value. -/
theorem complete_value (s : State) (regs : Regs Num32) (v : RegVal Num32) :
    complete s (respond regs (encodeVal s.port v)) = .next { s with regs := regs, rsp := some ⟨false, wordOfVal v⟩ } := by
  cases v <;> rfl

/-- Completing a command with a result. -/
theorem complete_answer (s : State) (x : Regs Num32 × RegVal Num32) :
    complete s (answer s.port x) = .next { s with regs := x.1, rsp := some ⟨false, wordOfVal x.2⟩ } :=
  complete_value s x.1 x.2

/-- A reject changes the response port, and nothing else. -/
theorem complete_reject (s : State) (c : RejectCode) :
    complete s (reject (w := s.port.numW) c s.regs) = .next { s with rsp := some ⟨true, rejectWord c⟩ } := by
  cases c <;> rfl

/-- What a command with a numeric operand does: it rejects, or it runs on the number. -/
theorem withOperand_cases {α : Type} (C : PortConfig α) (bus : BitVec C.numW) (r : Regs α)
    (run : α → Completion α C.numW) :
    (C.decode bus = none ∧ withOperand C bus r run = reject .badOperand r) ∨
    (∃ v, C.decode bus = some v ∧ withOperand C bus r run = run v) := by
  unfold withOperand
  cases C.decode bus with
  | none => exact .inl ⟨rfl, rfl⟩
  | some v => exact .inr ⟨v, rfl, rfl⟩

/-- A command of the machine whose numeric operand is no number. -/
theorem complete_operand_none {s : State} {a : Word} (h : numOfWord a = none)
    (run : Num32 → Completion Num32 s.port.numW) :
    complete s (withOperand s.port a s.regs run) = .next { s with rsp := some ⟨true, 5⟩ } := by
  have hw : withOperand s.port a s.regs run = reject .badOperand s.regs := by
    rcases withOperand_cases s.port a s.regs run with ⟨_, e⟩ | ⟨v, hv, _⟩
    · exact e
    · exact absurd (h.symm.trans hv) (by simp)
  rw [hw]
  exact complete_reject s .badOperand

/-- A command of the machine on its numeric operand. -/
theorem complete_operand_some {s : State} {a : Word} {v : Num32} (h : numOfWord a = some v)
    (run : Num32 → Completion Num32 s.port.numW) :
    complete s (withOperand s.port a s.regs run) = complete s (run v) := by
  rcases withOperand_cases s.port a s.regs run with ⟨hn, _⟩ | ⟨u, hu, e⟩
  · exact absurd (h.symm.trans hn) (by simp)
  · obtain rfl : v = u := Option.some.inj (h.symm.trans hu)
    rw [e]

/-- The machine's execution of a command is the block's, at the default implementation. -/
theorem exec_eq (i : Instr) (s : State) : exec i s = complete s (runCommand s.port i s.cmdA s.cmdB s.regs) := by
  cases i <;> rfl

/-- The codes are the five of R211. -/
theorem rejectWord_range (c : RejectCode) : 1 ≤ (rejectWord c).toNat ∧ (rejectWord c).toNat ≤ 5 := by
  cases c <;> decide

theorem mem_allParams (p : ParamReg) : p ∈ allParams := by cases p <;> decide

theorem mem_allStates (q : StateReg) : q ∈ allStates := by cases q <;> decide

theorem mem_allRegs (x : RegName) : x ∈ allRegs := by
  cases x with
  | param p => exact List.mem_append_left _ (List.mem_map_of_mem (mem_allParams p))
  | state q => exact List.mem_append_right _ (List.mem_map_of_mem (mem_allStates q))

/-- The two halves of the REG space (R23). -/
theorem paramAddr_lt (p : ParamReg) : paramAddr p < 0x80 := by cases p <;> decide

theorem stateAddr_ge (q : StateReg) : 0x80 ≤ stateAddr q ∧ stateAddr q < 256 := by cases q <;> decide

/-- The register found at a register's address is that register. -/
theorem regAt?_regAddr (x : RegName) : regAt? (regAddr x) = some x := by
  cases x with
  | param p => cases p <;> rfl
  | state q => cases q <;> rfl

/-- What `regAt?` finds has the address asked for. -/
theorem regAddr_of_regAt? {a : Nat} {x : RegName} (h : regAt? a = some x) : regAddr x = a := by
  have := List.find?_some h
  simpa using this

/-- The cases of `env_next`: the stage decides, and in a timed stage whether the time is up. -/
theorem envNext_cases {α : Type} (C : Config α) (e : Env α) (p : Adsr α) (dt : α) :
    (e.stage = .idle ∧ envNext C e p dt = { e with level := C.zero }) ∨
    (e.stage = .attack ∧ C.le (flooredTime C p.attack) (C.add e.t dt) = true ∧
      envNext C e p dt = { e with stage := .decay, t := C.zero, level := C.one }) ∨
    (e.stage = .attack ∧ C.le (flooredTime C p.attack) (C.add e.t dt) = false ∧
      envNext C e p dt = { e with t := C.add e.t dt, level := C.div (C.add e.t dt) (flooredTime C p.attack) }) ∨
    (e.stage = .decay ∧ C.le (flooredTime C p.decay) (C.add e.t dt) = true ∧
      envNext C e p dt = { e with stage := .sustain, t := C.zero, level := p.sustain }) ∨
    (e.stage = .decay ∧ C.le (flooredTime C p.decay) (C.add e.t dt) = false ∧
      envNext C e p dt =
        { e with
          t := C.add e.t dt
          level := C.sub C.one (C.mul (C.sub C.one p.sustain) (C.div (C.add e.t dt) (flooredTime C p.decay))) }) ∨
    (e.stage = .sustain ∧ envNext C e p dt = { e with level := p.sustain }) ∨
    (e.stage = .release ∧ C.le (flooredTime C p.release) (C.add e.t dt) = true ∧
      envNext C e p dt = { e with stage := .idle, t := C.zero, level := C.zero }) ∨
    (e.stage = .release ∧ C.le (flooredTime C p.release) (C.add e.t dt) = false ∧
      envNext C e p dt =
        { e with
          t := C.add e.t dt
          level := C.mul e.rel0 (C.sub C.one (C.div (C.add e.t dt) (flooredTime C p.release))) }) := by
  obtain ⟨st, t, l, r0⟩ := e
  cases st
  case idle | sustain => simp [envNext]
  case attack =>
    cases h : C.le (flooredTime C p.attack) (C.add t dt) <;> simp [envNext, h]
  case decay =>
    cases h : C.le (flooredTime C p.decay) (C.add t dt) <;> simp [envNext, h]
  case release =>
    cases h : C.le (flooredTime C p.release) (C.add t dt) <;> simp [envNext, h]

/-- What a step can do: stay idle, reset, or execute the command presented. -/
theorem step_cases (s : State) :
    (s.queue = [] ∧ step s = .next s) ∨
    (∃ rest, s.queue = .rst :: rest ∧ step s = .next (resetEdge rest s)) ∨
    (∃ c rest, s.queue = .command c :: rest ∧ step s = execWord c.word (accept c rest s)) := by
  unfold step
  split <;> rename_i h <;> simp [h]

end Sys2Proof.Machine
end

