-- ==== Sys2Proof/Laws/Num.lean ====
section
/-! SUPPORT. Ranges of the binary32 operations as the units use them: ramps, wraps and quotients, and what a step of an
envelope keeps. -/

namespace Sys2Proof.Machine

theorem isBinary32_sigBits {x : Num32} (h : isBinary32 x = true) : SigBits x.units.natAbs :=
  ((isBinary32_iff x).1 h).1

theorem isBinary32_le_maxMag {x : Num32} (h : isBinary32 x = true) : x.units.natAbs ≤ maxMag :=
  ((isBinary32_iff x).1 h).2

/-- The units of the number 1. -/
theorem unitsOne_eq : (unitsOne : Int) = 2 ^ 149 := by decide

theorem unitsOne_le_maxMag : unitsOne ≤ maxMag := by decide

/-- Adding at most 1 to the greatest number gives the greatest number. -/
theorem roundMag_maxMag_add_one : roundMag (maxMag + unitsOne) 1 = maxMag := by decide +kernel

/-- A sum of a non-negative number and one of [0, 1] does not overflow and is not negative. -/
theorem add32_nonneg {c : Nat} {x y : Num32} (hx : isBinary32 x = true) (h0 : 0 ≤ x.units) (hy : 0 ≤ y.units)
    (hy1 : y.units ≤ 2 ^ 149) : 0 ≤ (add32 c x y).units := by
  have hmax := isBinary32_le_maxMag hx
  have hle : (x.units + y.units).natAbs ≤ maxMag + unitsOne := by
    have := unitsOne_eq
    omega
  have hr : roundMag (x.units + y.units).natAbs 1 ≤ maxMag :=
    (roundMag_mono (by decide) (by decide) (Nat.mul_le_mul_right 1 hle)).trans_eq roundMag_maxMag_add_one
  rw [add32, finishOp_eq hr, withSign, if_neg (by omega)]
  exact Int.natCast_nonneg _

/-- The same with the operands the other way round: a phase plus an increment. -/
theorem add32_nonneg' {c : Nat} {x y : Num32} (hy : isBinary32 y = true) (h0 : 0 ≤ y.units) (hx : 0 ≤ x.units)
    (hx1 : x.units ≤ 2 ^ 149) : 0 ≤ (add32 c x y).units := by
  have hmax := isBinary32_le_maxMag hy
  have hle : (x.units + y.units).natAbs ≤ maxMag + unitsOne := by
    have := unitsOne_eq
    omega
  have hr : roundMag (x.units + y.units).natAbs 1 ≤ maxMag :=
    (roundMag_mono (by decide) (by decide) (Nat.mul_le_mul_right 1 hle)).trans_eq roundMag_maxMag_add_one
  rw [add32, finishOp_eq hr, withSign, if_neg (by omega)]
  exact Int.natCast_nonneg _

/-- The fractional part of a number has 24 significant bits. -/
theorem sigBits_mod_one {m : Nat} (h : SigBits m) : SigBits (m % unitsOne) := by
  rcases Nat.le_total (Nat.log2 m - 23) 149 with hk | hk
  · have h1 : spacing m ∣ m % unitsOne := (Nat.dvd_mod_iff (Nat.pow_dvd_pow 2 hk : spacing m ∣ unitsOne)).2 h
    exact (spacing_dvd (Nat.mod_le _ _)).trans h1
  · have h1 : unitsOne ∣ m := (Nat.pow_dvd_pow 2 hk).trans h
    rw [Nat.mod_eq_zero_of_dvd h1]
    exact dvd_zero _

/-- `frac` of a non-negative number is exact (R10, R34). -/
theorem frac32_eq {c : Nat} {u : Num32} (hu : isBinary32 u = true) (h0 : 0 ≤ u.units) :
    sub32 c u (floor32 u) = ⟨u.units % 2 ^ 149⟩ := by
  obtain ⟨n⟩ := u
  obtain ⟨m, rfl⟩ := Int.eq_ofNat_of_zero_le h0
  have hm : SigBits m := by simpa using isBinary32_sigBits hu
  have hd : ((m : Int) - (m : Int) / (unitsOne : Int) * unitsOne) = ((m % unitsOne : Nat) : Int) := by
    have := Int.emod_def (m : Int) unitsOne
    push_cast
    rw [this, Int.mul_comm]
  have hself : roundMag (m % unitsOne) 1 = m % unitsOne := by
    simpa using roundMag_self (d := 1) (by decide) (sigBits_mod_one hm)
  have hle : m % unitsOne ≤ maxMag := (Nat.mod_lt _ (by decide)).le.trans unitsOne_le_maxMag
  simp only [sub32, floor32]
  rw [hd, finishOp_eq (by rw [Int.natAbs_natCast, hself]; exact hle), Int.natAbs_natCast, hself, withSign,
    if_neg (by omega)]
  simp [unitsOne]

/-- `frac` of a non-negative number is in [0, 1). -/
theorem frac32_bounds {c : Nat} {u : Num32} (hu : isBinary32 u = true) (h0 : 0 ≤ u.units) :
    0 ≤ (sub32 c u (floor32 u)).units ∧ (sub32 c u (floor32 u)).units < 2 ^ 149 := by
  rw [frac32_eq hu h0]
  exact ⟨Int.emod_nonneg _ (by decide), Int.emod_lt_of_pos _ (by decide)⟩

/-- `FS_EFF` is at least 1 (R27). -/
theorem fsEff_ge_one (n : Nat) (r : Regs Num32) : 2 ^ 149 ≤ (fsEff (binary32 n) r).units := by
  have h1 : lit32 1 1 = ⟨2 ^ 149⟩ := by decide +kernel
  simp only [fsEff, numMax, binary32_le, binary32_constants, defaultConstants, h1, decide_eq_true_eq]
  split <;> simp_all
  omega

theorem isBinary32_fsEff (n : Nat) {r : Regs Num32} (h : isBinary32 r.par.fs = true) :
    isBinary32 (fsEff (binary32 n) r) = true := by
  unfold fsEff numMax
  split
  · exact isBinary32_lit32 _ _
  · exact h

/-- A non-negative number divided by one of at least 1 stays between 0 and itself. -/
theorem div32_bounds {c : Nat} {x y : Num32} (hx : isBinary32 x = true) (h0 : 0 ≤ x.units) (hy : 2 ^ 149 ≤ y.units) :
    0 ≤ (div32 c x y).units ∧ (div32 c x y).units ≤ x.units := by
  obtain ⟨n⟩ := x
  obtain ⟨m, rfl⟩ := Int.eq_ofNat_of_zero_le h0
  have hy0 : 0 < y.units := by omega
  rw [div32, if_neg (by omega), Int.sign_eq_one_of_pos hy0]
  refine finishOp_bounds (by omega) (by simpa using isBinary32_sigBits hx) (by simpa using isBinary32_le_maxMag hx)
    (by positivity) ?_
  rw [Int.natAbs_of_nonneg hy0.le, Int.mul_one, unitsOne_eq]
  exact Int.mul_le_mul_of_nonneg_left hy h0

/-- A ratio of a number to a greater one is in [0, 1]. -/
theorem ratio32_bounds {c : Nat} {x y : Num32} (h0 : 0 ≤ x.units) (h : x.units ≤ y.units) (hy : 0 < y.units) :
    0 ≤ (div32 c x y).units ∧ (div32 c x y).units ≤ 2 ^ 149 := by
  rw [div32, if_neg (by omega), Int.sign_eq_one_of_pos hy, ← unitsOne_eq]
  refine finishOp_bounds (by omega) sigBits_unitsOne unitsOne_le_maxMag (by positivity) ?_
  rw [Int.natAbs_of_nonneg hy.le, Int.mul_one, Int.mul_comm]
  exact Int.mul_le_mul_of_nonneg_left h (by decide)

/-- A product of numbers of [0, 1] is in [0, 1]. -/
theorem mul32_unit {c : Nat} {x y : Num32} (hx : 0 ≤ x.units) (hx1 : x.units ≤ 2 ^ 149) (hy : 0 ≤ y.units)
    (hy1 : y.units ≤ 2 ^ 149) : 0 ≤ (mul32 c x y).units ∧ (mul32 c x y).units ≤ 2 ^ 149 := by
  rw [mul32, ← unitsOne_eq]
  refine finishOp_bounds (by decide) sigBits_unitsOne unitsOne_le_maxMag (by positivity) ?_
  rw [unitsOne_eq]
  exact Int.mul_le_mul hx1 hy1 hy (by decide)

/-- One minus a number of [0, 1] is in [0, 1]. -/
theorem oneSub32_unit {c : Nat} {x : Num32} (hx : 0 ≤ x.units) (hx1 : x.units ≤ 2 ^ 149) :
    0 ≤ (sub32 c ⟨2 ^ 149⟩ x).units ∧ (sub32 c ⟨2 ^ 149⟩ x).units ≤ 2 ^ 149 := by
  rw [sub32, ← unitsOne_eq]
  exact finishOp_bounds (by decide) sigBits_unitsOne unitsOne_le_maxMag (by dsimp only; have := unitsOne_eq; omega)
    (by dsimp only; push_cast; omega)

/-- A time as `env_next` uses it is positive. -/
theorem flooredTime_pos (n : Nat) (x : Num32) : 0 < (flooredTime (binary32 n) x).units := by
  have h1 : 0 < (lit32 1 (2 ^ 20)).units := by decide +kernel
  simp only [flooredTime, numMax, binary32_le, binary32_constants, defaultConstants, decide_eq_true_eq]
  split <;> omega

/-- A step of an envelope does not write `rel0`. -/
theorem envNext_rel0 {α : Type} (C : Config α) (e : Env α) (p : Adsr α) (dt : α) : (envNext C e p dt).rel0 = e.rel0 := by
  rcases envNext_cases C e p dt with ⟨_, h⟩ | ⟨_, _, h⟩ | ⟨_, _, h⟩ | ⟨_, _, h⟩ | ⟨_, _, h⟩ | ⟨_, h⟩ | ⟨_, _, h⟩ |
    ⟨_, _, h⟩ <;> rw [h]

/-- A step of an envelope keeps its time non-negative. -/
theorem envNext_time {n : Nat} {e : Env Num32} {p : Adsr Num32} {dt : Num32} (he : isBinary32 e.t = true)
    (ht : 0 ≤ e.t.units) (hd : 0 ≤ dt.units) (hd1 : dt.units ≤ 2 ^ 149) :
    0 ≤ (envNext (binary32 n) e p dt).t.units := by
  have ha := add32_nonneg (c := n) he ht hd hd1
  rcases envNext_cases (binary32 n) e p dt with ⟨_, h⟩ | ⟨_, _, h⟩ | ⟨_, _, h⟩ | ⟨_, _, h⟩ | ⟨_, _, h⟩ | ⟨_, h⟩ |
    ⟨_, _, h⟩ | ⟨_, _, h⟩ <;> rw [h]
  all_goals first | exact ht | exact ha | exact Int.le_refl 0

/-- A step of an envelope whose sustain level is in [0, 1] gives a level in [0, 1] (R120). -/
theorem envNext_level {n : Nat} {e : Env Num32} {p : Adsr Num32} {dt : Num32} (he : isBinary32 e.t = true)
    (ht : 0 ≤ e.t.units) (hd : 0 ≤ dt.units) (hd1 : dt.units ≤ 2 ^ 149) (hs : 0 ≤ p.sustain.units)
    (hs1 : p.sustain.units ≤ 2 ^ 149) (hr : 0 ≤ e.rel0.units) (hr1 : e.rel0.units ≤ 2 ^ 149) :
    0 ≤ (envNext (binary32 n) e p dt).level.units ∧ (envNext (binary32 n) e p dt).level.units ≤ 2 ^ 149 := by
  have ha := add32_nonneg (c := n) he ht hd hd1
  have ratio : ∀ x : Num32, (binary32 n).le (flooredTime (binary32 n) x) ((binary32 n).add e.t dt) = false →
      0 ≤ (div32 n (add32 n e.t dt) (flooredTime (binary32 n) x)).units ∧
        (div32 n (add32 n e.t dt) (flooredTime (binary32 n) x)).units ≤ 2 ^ 149 := fun x h => by
    have hlt : (add32 n e.t dt).units ≤ (flooredTime (binary32 n) x).units := by
      simp only [binary32_le, binary32_add, decide_eq_false_iff_not] at h
      omega
    exact ratio32_bounds ha hlt (flooredTime_pos n x)
  have unit0 : (0 : Int) ≤ 0 ∧ (0 : Int) ≤ 2 ^ 149 := by decide
  have unit1 : (0 : Int) ≤ 2 ^ 149 ∧ (2 : Int) ^ 149 ≤ 2 ^ 149 := by decide
  rcases envNext_cases (binary32 n) e p dt with ⟨_, h⟩ | ⟨_, _, h⟩ | ⟨_, hf, h⟩ | ⟨_, _, h⟩ | ⟨_, hf, h⟩ | ⟨_, h⟩ |
    ⟨_, _, h⟩ | ⟨_, hf, h⟩ <;> rw [h]
  · exact unit0
  · exact unit1
  · exact ratio p.attack hf
  · exact ⟨hs, hs1⟩
  · have hq := ratio p.decay hf
    have h1 := oneSub32_unit (c := n) hs hs1
    have h2 := mul32_unit (c := n) h1.1 h1.2 hq.1 hq.2
    exact oneSub32_unit h2.1 h2.2
  · exact ⟨hs, hs1⟩
  · exact unit0
  · have hq := ratio p.release hf
    have h1 := oneSub32_unit (c := n) hq.1 hq.2
    exact mul32_unit hr hr1 h1.1 h1.2

end Sys2Proof.Machine
end

