-- ==== Sys2Proof/Laws/PerInstr.lean ====
section
/-! SUPPORT. Statements made per command: the word of a well-formed command is an instance of its row of the opcode table,
`(w & mask) == match` (R85). -/

namespace Sys2Proof.Laws.RowMatch

/-- The encoded word fits the fixed bits of the command's own row. -/
def Statement (i : Instr) : Prop :=
  i.wf = true → encode i &&& formatMask (opcodeFormat (opcodeOfInstr i)) = matchWord (opcodeOfInstr i)

/-- The two words that carry an address, over all 256 addresses. -/
theorem addr_words : ∀ a : Fin 256,
    encode (.wrr a) &&& formatMask (opcodeFormat (opcodeOfInstr (.wrr a))) = matchWord (opcodeOfInstr (.wrr a)) ∧
      encode (.rdr a) &&& formatMask (opcodeFormat (opcodeOfInstr (.rdr a))) = matchWord (opcodeOfInstr (.rdr a)) := by
  decide +kernel

theorem nop : Statement .nop := fun _ => by decide
theorem wrr (addr : Nat) : Statement (.wrr addr) := fun h =>
  (addr_words ⟨addr, by simpa [Instr.wf] using h⟩).1
theorem rdr (addr : Nat) : Statement (.rdr addr) := fun h =>
  (addr_words ⟨addr, by simpa [Instr.wf] using h⟩).2
theorem envOn : Statement .envOn := fun _ => by decide
theorem envOff : Statement .envOff := fun _ => by decide
theorem envNext : Statement .envNext := fun _ => by decide
theorem envClosed : Statement .envClosed := fun _ => by decide
theorem oscStart (k : OscId) : Statement (.oscStart k) := fun _ => by cases k <;> decide
theorem oscUpd (k : OscId) (tf tc : Bool) : Statement (.oscUpd k tf tc) := fun _ => by
  cases k <;> cases tf <;> cases tc <;> decide
theorem oscNext (k : OscId) : Statement (.oscNext k) := fun _ => by cases k <;> decide
theorem noiseStart : Statement .noiseStart := fun _ => by decide
theorem noiseStop : Statement .noiseStop := fun _ => by decide
theorem noiseUpd : Statement .noiseUpd := fun _ => by decide
theorem noiseNext : Statement .noiseNext := fun _ => by decide
theorem lfoUpd : Statement .lfoUpd := fun _ => by decide
theorem lfoNext : Statement .lfoNext := fun _ => by decide
theorem lfoQry : Statement .lfoQry := fun _ => by decide
theorem fltStart : Statement .fltStart := fun _ => by decide
theorem fltStop : Statement .fltStop := fun _ => by decide
theorem fltApply (tf tq : Bool) : Statement (.fltApply tf tq) := fun _ => by cases tf <;> cases tq <;> decide

end Sys2Proof.Laws.RowMatch
end

