-- ==== Sys2Proof/Tests/Slice0.lean ====
section
/-! SUPPORT. Tests against the worked words and vectors of the spec, and a witness for the hypotheses of every statement. -/

set_option Elab.async false

namespace Sys2Proof.Tests

open Sys2Proof Sys2Proof.Machine

/-! ### Helpers -/

/-- The number of a bus word. -/
def num (w : Word) : Num32 := (numOfWord w).getD ⟨0⟩

/-- A state with the given registers and buses, as after an acceptance. -/
def state (r : Regs Num32) (a : Word := 0) (b : Word := 0) : State :=
  { State.reset with regs := r, cmdA := a, cmdB := b, count := 1 }

/-- The reset registers. -/
def r0 : Regs Num32 := State.reset.regs

/-- The response of a command, if it completes. -/
def response (i : Instr) (s : State) : Option (Response 32) :=
  match exec i s with
  | .next t => t.rsp
  | .fault _ => none
  | .refused _ => none

/-- What a register holds after a command. -/
def after (i : Instr) (s : State) (x : RegName) : Option Word :=
  match exec i s with
  | .next t => some (wordOfVal (readReg t.regs x))
  | .fault _ => none
  | .refused _ => none

/-- The state after a step that stops nowhere. -/
def stepped (s : State) : State :=
  match step s with
  | .next t => t
  | .fault _ => s
  | .refused _ => s

/-- A state with one presented command. -/
def presented (w a b : Word) : State := { State.reset with queue := [.command ⟨w, a, b⟩] }

/-! ### Well-formedness -/

theorem test_wf_wrr_too_wide : Instr.wf (.wrr 256) = false := by decide
theorem test_wf_rdr_too_wide : Instr.wf (.rdr 300) = false := by decide
theorem test_wf_last_address : Instr.wf (.wrr 255) = true ∧ Instr.wf (.rdr 0) = true := by decide

/-! ### Decoding: the words of V30.1 and V30.2, one at least for each command -/

theorem test_decode_sys : decode 0x00000000 = .ok .nop ∧ decode 0x01000000 = .ok (.wrr 0) ∧
    decode 0x02B10000 = .ok (.rdr 0xB1) := by decide +kernel
theorem test_decode_env : decode 0x10000000 = .ok .envOn ∧ decode 0x11000000 = .ok .envOff ∧
    decode 0x13000000 = .ok .envNext ∧ decode 0x14000000 = .ok .envClosed := by decide +kernel
theorem test_decode_osc : decode 0x20000100 = .ok (.oscStart .osc2) ∧ decode 0x22000101 = .ok (.oscUpd .osc2 true false) ∧
    decode 0x22000002 = .ok (.oscUpd .osc1 false true) ∧ decode 0x23000100 = .ok (.oscNext .osc2) := by decide +kernel
theorem test_decode_noise : decode 0x30000000 = .ok .noiseStart ∧ decode 0x31000000 = .ok .noiseStop ∧
    decode 0x32000000 = .ok .noiseUpd ∧ decode 0x33000000 = .ok .noiseNext := by decide +kernel
theorem test_decode_lfo : decode 0x42000000 = .ok .lfoUpd ∧ decode 0x43000000 = .ok .lfoNext ∧
    decode 0x44000000 = .ok .lfoQry := by decide +kernel
theorem test_decode_flt : decode 0x50000000 = .ok .fltStart ∧ decode 0x51000000 = .ok .fltStop ∧
    decode 0x53000001 = .ok (.fltApply true false) ∧ decode 0x53000002 = .ok (.fltApply false true) := by decide +kernel

/-- V30.3, the words with code 1. -/
theorem test_decode_illegal : decode 0x03000000 = .error .illegalOp ∧ decode 0x12000000 = .error .illegalOp ∧
    decode 0x21000000 = .error .illegalOp ∧ decode 0x40000000 = .error .illegalOp ∧
    decode 0x60000000 = .error .illegalOp ∧ decode 0xFFFFFFFF = .error .illegalOp := by decide +kernel

/-- V30.3, the words with code 2. -/
theorem test_decode_reserved : decode 0x00000001 = .error .reservedField ∧ decode 0x10000100 = .error .reservedField ∧
    decode 0x13010000 = .error .reservedField ∧ decode 0x23000200 = .error .reservedField ∧
    decode 0x22000004 = .error .reservedField ∧ decode 0x53000100 = .error .reservedField ∧
    decode 0x0180FF00 = .error .reservedField := by decide +kernel

theorem test_decodeTableWord : decodeTableWord 32 0x22000103 = some (.oscUpd .osc2 true true) ∧
    decodeTableWord 32 0x12000000 = none := by decide +kernel

/-! ### Numbers on the bus: the words listed in 95_test_vectors.md -/

theorem test_word_of_number : numOfWord 0x3F800000 = some ⟨2 ^ 149⟩ ∧ numOfWord 0xBF800000 = some ⟨-2 ^ 149⟩ ∧
    numOfWord 0x473B8000 = some (lit32 48000 1) ∧ wordOfNum (lit32 1 (10 ^ 6)) = 0x358637BD := by decide +kernel
theorem test_not_finite : numOfWord 0x7F800000 = none ∧ numOfWord 0x7FC00000 = none ∧
    numOfWord 0x80000000 = some ⟨0⟩ := by decide +kernel

/-! ### System commands -/

theorem test_nop : response .nop (state r0 0x7FC00000) = some ⟨false, 0⟩ := by decide +kernel

/-- V40.6: a 4-bit register keeps bits 3:0. -/
theorem test_wrr_keeps_low_bits : after (.wrr 0x0C) (state r0 0x1F) (.param .lfoTarget) = some 0xF := by decide +kernel

/-- V40.15: code 4 before code 5. -/
theorem test_wrr_read_only_first : response (.wrr 0x88) (state r0 0x7FC00000) = some ⟨true, 4⟩ := by decide +kernel

/-- R29's codes, at both ends, on ENV_F and ENV_N. -/
theorem test_rdr_stage :
    response (.rdr 0xB8) (state { r0 with envF := ⟨.release, ⟨0⟩, ⟨0⟩, ⟨0⟩⟩ }) = some ⟨false, 4⟩ ∧
    response (.rdr 0xA0) (state { r0 with envN := ⟨.attack, ⟨0⟩, ⟨0⟩, ⟨0⟩⟩ }) = some ⟨false, 1⟩ := by decide +kernel

/-- V40.2 and V40.12. -/
theorem test_rdr : response (.rdr 0) (state r0) = some ⟨false, 0x473B8000⟩ ∧
    response (.rdr 0x84) (state r0) = some ⟨true, 3⟩ := by decide +kernel

/-! ### Envelope: V41.1 (DT = 1/4) -/

/-- The setup of V41.1 with an envelope in a given stage. -/
def envRegs (e : Env Num32) : Regs Num32 :=
  { r0 with
    par := { r0.par with fs := num 0x40800000, amp := ⟨num 0x3F800000, num 0x3F000000, num 0x3F000000, num 0x3F800000⟩ }
    envA := e }

/-- V41.4. -/
theorem test_envOn : after .envOn (state (envRegs ⟨.release, num 0x3E800000, num 0x3EC00000, num 0x3F000000⟩))
    (.state .envALevel) = some 0 := by decide +kernel

/-- Row 10. -/
theorem test_envOff : after .envOff (state (envRegs ⟨.sustain, ⟨0⟩, num 0x3F000000, ⟨0⟩⟩)) (.state .envARel0) =
    some 0x3F000000 := by decide +kernel

/-- Row 6: attack ends at level 1. -/
theorem test_envNext_attack_ends : response .envNext (state (envRegs ⟨.attack, num 0x3F400000, num 0x3F400000, ⟨0⟩⟩)) =
    some ⟨false, 0x3F800000⟩ := by decide +kernel

/-- Row 11: the release ramp. -/
theorem test_envNext_release : response .envNext
    (state (envRegs ⟨.release, ⟨0⟩, num 0x3F000000, num 0x3F000000⟩)) = some ⟨false, 0x3EC00000⟩ := by decide +kernel

/-- Rows 0 and 2. -/
theorem test_envClosed : response .envClosed (state r0) = some ⟨false, 1⟩ ∧
    response .envClosed (state (envRegs ⟨.attack, ⟨0⟩, ⟨0⟩, ⟨0⟩⟩)) = some ⟨false, 0⟩ := by decide +kernel

/-! ### Oscillator: V42 -/

/-- Registers with FS, and oscillator 1 as given. -/
def oscSetup (fs : Word) (q : OscParams Num32) (o : OscState Num32) : Regs Num32 :=
  { r0 with par := { r0.par with fs := num fs, o1 := q }, osc1 := o }

/-- R132's example. -/
theorem test_oscStart : after (.oscStart .osc2) (state r0 0x43DC0000) (.state .osc2Base) = some 0x43DC0000 := by decide +kernel

/-- V60.1. -/
theorem test_oscStart_not_finite : response (.oscStart .osc1) (state r0 0x7F800000) = some ⟨true, 5⟩ := by decide +kernel

/-- V42.3 f: both flags, inc 27. -/
theorem test_oscUpd_both_flags : after (.oscUpd .osc1 true true)
    (state (oscSetup 0x41000000 ⟨0, ⟨0⟩, num 0x44898000, ⟨0⟩, ⟨0⟩⟩ ⟨⟨0⟩, num 0x42C80000, ⟨0⟩⟩) 0x3F800000)
    (.state .osc1Inc) = some 0x41D80000 := by decide +kernel

/-- V42.3 a: 880/48000 rounded. -/
theorem test_oscUpd_rounds : after (.oscUpd .osc1 false false)
    (state (oscSetup 0x473B8000 ⟨0, num 0x3F800000, ⟨0⟩, ⟨0⟩, ⟨0⟩⟩ ⟨⟨0⟩, num 0x43DC0000, ⟨0⟩⟩)) (.state .osc1Inc) =
    some 0x3C962FC9 := by decide +kernel

/-- R134's example: rising sawtooth at 1/8 is -3/4. -/
theorem test_oscNext : response (.oscNext .osc1)
    (state (oscSetup 0x473B8000 ⟨3, ⟨0⟩, ⟨0⟩, ⟨0⟩, num 0x3F800000⟩ ⟨⟨0⟩, ⟨0⟩, num 0x3E000000⟩)) =
    some ⟨false, 0xBF400000⟩ := by decide +kernel

/-- V42.2, first row: at increment 1/8 the phase goes from 13/16 to 15/16, and the corrected sample is 5/8. -/
theorem test_oscNext_smooth_saw : response (.oscNext .osc1)
    (state (oscSetup 0x473B8000 ⟨5, ⟨0⟩, ⟨0⟩, ⟨0⟩, num 0x3F800000⟩ ⟨num 0x3F500000, ⟨0⟩, num 0x3E000000⟩)) =
    some ⟨false, 0x3F200000⟩ := by decide +kernel

/-! ### Noise generator: V43 -/

/-- The state of V43.4 before its first sample. -/
def noiseSetup (en : BitVec 1) : Regs Num32 :=
  { r0 with
    par := { r0.par with noise := ⟨en, ⟨0⟩, ⟨0⟩, num 0x3F800000⟩ }
    noise := ⟨1, ⟨0⟩, num 0x3F000000, num 0x3F800000, num 0x3B000000⟩
    envN := ⟨.attack, ⟨0⟩, ⟨0⟩, ⟨0⟩⟩ }

theorem test_noiseStart : after .noiseStart (state r0) (.state .envNStage) = some 1 := by decide +kernel

/-- R152's example. -/
theorem test_noiseStop : after .noiseStop (state { r0 with envN := ⟨.decay, ⟨0⟩, num 0x3F400000, ⟨0⟩⟩ }) (.state .envNRel0) =
    some 0x3F400000 := by decide +kernel

/-- V43.3, first row in binary32 but for its N_DUR; last column. -/
theorem test_noiseUpd : after .noiseUpd (state r0) (.state .noiseA) = some 0x3B2B1FF7 ∧
    after .noiseUpd (state r0) (.state .noiseDt) = some 0x37AEC33E := by decide +kernel

/-- V43.4, first sample: -262111/1048576. -/
theorem test_noiseNext : response .noiseNext (state (noiseSetup 1)) = some ⟨false, wordOfNum (lit32 (-262111) 1048576)⟩ := by
  decide +kernel

/-- V43.1. -/
theorem test_noiseNext_disabled : after .noiseNext (state (noiseSetup 0)) (.state .noiseRng) = some 1 := by decide +kernel

/-! ### LFO: V44 -/

/-- FS 8 and the LFO as given. -/
def lfoSetup (q : LfoParams Num32) (o : LfoState Num32) : Regs Num32 :=
  { r0 with par := { r0.par with fs := num 0x41000000, lfo := q }, lfo := o }

/-- V44.1: a negative frequency gives increment 0; and R172's example. -/
theorem test_lfoUpd : after .lfoUpd (state (lfoSetup ⟨0, num 0xC0000000, ⟨0⟩, 0, 0⟩ ⟨⟨0⟩, ⟨0⟩⟩)) (.state .lfoInc) = some 0 ∧
    after .lfoUpd (state (lfoSetup ⟨0, num 0x3F800000, ⟨0⟩, 0, 0⟩ ⟨⟨0⟩, ⟨0⟩⟩)) (.state .lfoInc) = some 0x3E000000 := by
  decide +kernel

/-- V44.2, falling sawtooth, first sample: 3/8. -/
theorem test_lfoNext : response .lfoNext
    (state (lfoSetup ⟨0, num 0x3F800000, num 0x3F000000, 4, 0⟩ ⟨⟨0⟩, num 0x3E000000⟩)) = some ⟨false, 0x3EC00000⟩ := by
  decide +kernel

/-- V44.4, targets 4 and 10. -/
theorem test_lfoQry : response .lfoQry (state (lfoSetup ⟨1, ⟨0⟩, ⟨0⟩, 0, 4⟩ ⟨⟨0⟩, ⟨0⟩⟩)) = some ⟨false, 0x015⟩ ∧
    response .lfoQry (state (lfoSetup ⟨1, ⟨0⟩, ⟨0⟩, 0, 10⟩ ⟨⟨0⟩, ⟨0⟩⟩)) = some ⟨false, 0⟩ := by decide +kernel

/-! ### Filter: V45 -/

/-- The setup of V45.1 with a filter type and integrators. -/
def fltSetup (en ftype : BitVec 1) (cutoff res : Word) (f : FltState Num32) : Regs Num32 :=
  { r0 with
    par := { r0.par with flt := { r0.par.flt with en := en, ftype := ftype, cutoff := num cutoff, res := num res } }
    flt := f }

theorem test_fltStart : after .fltStart (state (fltSetup 1 0 0 0 ⟨⟨0⟩, num 0x3F800000⟩)) (.state .fltS2) = some 0 := by
  decide +kernel

/-- R192's example. -/
theorem test_fltStop : after .fltStop (state { r0 with envF := ⟨.sustain, ⟨0⟩, num 0x3F000000, ⟨0⟩⟩ }) (.state .envFRel0) =
    some 0x3F000000 := by decide +kernel

/-- V45.1, second row: 3/4, and V45.5 e. -/
theorem test_fltApply : response (.fltApply false false)
      (state (fltSetup 1 0 0x463B8000 0x3F000000 ⟨num 0x3F000000, num 0x3F000000⟩) 0x3F800000) = some ⟨false, 0x3F400000⟩ ∧
    response (.fltApply false true) (state (fltSetup 1 0 0x463B8000 0x40900000 ⟨⟨0⟩, ⟨0⟩⟩) 0x3F800000 0xBF800000) =
      some ⟨false, 0x3E800000⟩ := by decide +kernel

/-- V45.6: the bypass returns the bits, also those of a negative zero; an operand that is not finite is rejected. -/
theorem test_fltApply_bypass : response (.fltApply true true) (state r0 0x80000000) = some ⟨false, 0x80000000⟩ ∧
    response (.fltApply true true) (state r0 0 0x7F800000) = some ⟨true, 5⟩ := by decide +kernel

/-! ### The configurable block -/

/-- A CORE with a 40-bit bus and another K_FLT_Q: an integer register and a reject code are zero-extended, and the parameter is read. -/
theorem test_block_configured :
    let C : PortConfig Num32 := { binary32 0 with numW := 40, kFltQ := ⟨0⟩, encode := fun x => (wordOfNum x).setWidth 40, decode := fun w => numOfWord (w.setWidth 32) }
    (block C 0x02980000 0 0 r0).2 = ⟨false, 1⟩ ∧ (block C 0x01880000 0 0 r0).2 = ⟨true, 4⟩ ∧
    (block C 0x53000002 0x3F800000 0xBF800000 (fltSetup 1 0 0x463B8000 0x3F000000 ⟨⟨0⟩, ⟨0⟩⟩)).2 = ⟨false, 0x3E800000⟩ := by
  decide +kernel

/-! ### The step -/

/-- A word placed by `withFetchWord` runs as the first command after reset. -/
theorem test_step_withFetchWord : (stepped (State.reset.withFetchWord 32 0x02980000)).rsp = some ⟨false, 1⟩ ∧
    (stepped (State.reset.withFetchWord 32 0x10000000)).regs.envA.stage = .attack := by decide +kernel

/-- V40.5's first line, and a reset edge after it. -/
theorem test_step_wrr_then_reset :
    wordOfVal (readReg (stepped (presented 0x01140000 0x3F000000 0)).regs (.param .o1Gain)) = 0x3F000000 ∧
    (stepped { presented 0 0 0 with queue := [.rst], regs := noiseSetup 1 }).regs = State.reset.regs := by decide +kernel

/-- V30.3: code 2 before code 4, on the whole step. -/
theorem test_step_reject : (stepped (presented 0x0180FF00 0 0)).rsp = some ⟨true, 2⟩ := by decide +kernel

/-! ### Witnesses: for each statement with hypotheses, values that meet them, for each clause -/

theorem witness_ResetEdgeResetsAndIdleKeepsEverything :
    { State.reset with queue := [.rst, .command ⟨0, 0, 0⟩] }.queue = .rst :: [.command ⟨0, 0, 0⟩] ∧
    State.reset.queue = [] := ⟨rfl, rfl⟩

theorem witness_StepRunsTheDecodedCommand :
    (presented 0x53000003 0 0).queue = .command ⟨0x53000003, 0, 0⟩ :: [] ∧
    decode 0x53000003 = .ok (.fltApply true true) := ⟨rfl, by decide +kernel⟩

theorem witness_UndecodableWordsAreRejected :
    (presented 0xFFFFFFFF 0 0).queue = .command ⟨0xFFFFFFFF, 0, 0⟩ :: [] ∧
    (∀ o : Opcode, opcodeByte o ≠ fieldOp 0xFFFFFFFF) ∧
    opcodeByte .fltApply = fieldOp 0x53000004 ∧
    0x53000004 &&& formatMask (opcodeFormat .fltApply) ≠ (opcodeByte .fltApply).setWidth 32 <<< 24 :=
  ⟨rfl, fun o => by cases o <;> decide, by decide, by decide⟩

theorem witness_DecoderIsTotalAndExact :
    (∀ o : Opcode, opcodeByte o ≠ fieldOp 0x52000000) ∧
    (opcodeByte .wrr = fieldOp 0x01000100 ∧
      0x01000100 &&& formatMask (opcodeFormat .wrr) ≠ (opcodeByte .wrr).setWidth 32 <<< 24) ∧
    (opcodeByte .wrr = fieldOp 0x01FF0000 ∧
      0x01FF0000 &&& formatMask (opcodeFormat .wrr) = (opcodeByte .wrr).setWidth 32 <<< 24) :=
  ⟨fun o => by cases o <;> decide, by decide, by decide⟩

theorem witness_DecodeOfEncodeIsTheCommand :
    Instr.wf (.wrr 255) = true ∧ Instr.wf (.oscUpd .osc2 true true) = true := by decide

theorem witness_EncodeOfDecodeIsTheWord : decode 0x22000103 = .ok (.oscUpd .osc2 true true) := by decide +kernel

theorem witness_RegisterMapIsOneToOne :
    regAt? 0x00 = some (.param .fs) ∧ regAt? 0xBB = some (.state .envFRel0) ∧ regAt? 0x3C = none := by decide

theorem witness_WrrStoresOrRejects : 255 < 256 ∧
    regAt? 0xFF = none ∧ regAt? 0x80 = some (.state .envAStage) ∧
    (regAt? 0x3B = some (.param .aRelease) ∧ paramIsNum .aRelease = true ∧
      numOfWord (state r0 0xFF800000).cmdA = none ∧ numOfWord (state r0 0xFF7FFFFF).cmdA = some ⟨-(maxMag : Int)⟩) ∧
    regAt? 0x0C = some (.param .lfoTarget) ∧ paramIsNum .lfoTarget = false := by decide +kernel

theorem witness_WrittenParameterReadsBack :
    paramIsNum .fs = true ∧ paramIsNum .fType = false ∧ RegName.state .fltS1 ≠ .param .fs := by decide

theorem witness_RdrAnswersWithTheRegister : 255 < 256 ∧
    regAt? 0x01 = none ∧ (regAt? 0x00 = some (.param .fs) ∧ readReg r0 (.param .fs) = .num (lit32 48000 1)) ∧
    (regAt? 0x98 = some (.state .noiseRng) ∧ readReg r0 (.state .noiseRng) = .int 1) := by decide +kernel

theorem witness_OscStartSetsBaseAndPhase :
    numOfWord (state r0 0x7F800000).cmdA = none ∧ numOfWord (state r0 0x7F7FFFFF).cmdA = some ⟨maxMag⟩ := by
  decide +kernel

theorem witness_OscUpdLatchesTheIncrement :
    numOfWord (state r0 0x7FC00000).cmdA = none ∧ numOfWord (state r0 0x00000001).cmdA = some ⟨1⟩ := by
  decide +kernel

theorem witness_NoiseNextDrawsFiltersAndGates :
    (state (noiseSetup 0)).regs.par.noise.en = 0 ∧ (state (noiseSetup 1)).regs.par.noise.en = 1 := by decide

theorem witness_RandomSourceStepsAndScales : (0x80000000 : BitVec 32) ≠ 0 := by decide

theorem witness_RandomStepIsOneToOne : rngStep 1 = rngStep (0 + 1) := by decide

theorem witness_RouterBitsAreExclusive :
    (9 : BitVec 4) ≠ 4 ∧ (9 : BitVec 4) ≠ 5 ∧ (routerBits 1 9).getLsbD (9 : Fin 10) = true := by decide

theorem witness_FltApplyFilters :
    numOfWord (state r0 0x7FC00000 0).cmdA = none ∧ numOfWord (state r0 0 0xFF800000).cmdB = none ∧
    ((state r0).regs.par.flt.en = 0 ∧ numOfWord (state r0).cmdA = some ⟨0⟩ ∧ numOfWord (state r0).cmdB = some ⟨0⟩) ∧
    ((state (fltSetup 1 0 0x463B8000 0x3F000000 ⟨⟨0⟩, ⟨0⟩⟩) 0xC7800000 0x3F800000).regs.par.flt.en = 1 ∧
      numOfWord (state (fltSetup 1 0 0x463B8000 0x3F000000 ⟨⟨0⟩, ⟨0⟩⟩) 0xC7800000 0x3F800000).cmdA = some (lit32 (-65536) 1) ∧
      numOfWord (state (fltSetup 1 0 0x463B8000 0x3F000000 ⟨⟨0⟩, ⟨0⟩⟩) 0xC7800000 0x3F800000).cmdB = some ⟨2 ^ 149⟩) := by
  decide +kernel

theorem witness_FltApplyBypassesBitForBit :
    isFiniteWord (state r0 0x80000000 0x7F7FFFFF).cmdA = true ∧ isFiniteWord (state r0 0x80000000 0x7F7FFFFF).cmdB = true ∧
    (state r0 0x80000000 0x7F7FFFFF).regs.par.flt.en = 0 := by decide +kernel

theorem witness_ParametersChangeOnlyByWrr :
    ∃ t, exec (.wrr 0x3B) (state r0 0x3F800000) = .next t ∧
      readParam t.regs .aRelease ≠ readParam (state r0 0x3F800000).regs .aRelease :=
  ⟨{ state r0 0x3F800000 with regs := writeNum r0 .aRelease (num 0x3F800000), rsp := some ⟨false, 0⟩ }, rfl, by decide +kernel⟩

theorem witness_StateRegistersChangeOnlyByTheirWriters :
    ∃ t, exec .envOn (state r0) = .next t ∧ readState t.regs .envAStage ≠ readState (state r0).regs .envAStage :=
  ⟨_, rfl, by decide +kernel⟩

/-- A state in which a word that rejects is presented. -/
theorem witness_RejectLeavesEveryRegister :
    (block (binary32Port 0) 0x0180FF00 0 0 r0).2.err = true ∧
    (presented 0x0180FF00 0 0).queue = .command ⟨0x0180FF00, 0, 0⟩ :: [] ∧
    ∃ t, step (presented 0x0180FF00 0 0) = .next t ∧ t.rsp = some ⟨true, 2⟩ :=
  ⟨by decide +kernel, rfl, { presented 0x0180FF00 0 0 with queue := [], count := 1, rsp := some ⟨true, 2⟩ }, rfl, rfl⟩

theorem witness_RejectReportsTheFirstCode : (presented 0x01880000 0x7FC00000 0).queue =
    .command ⟨0x01880000, 0x7FC00000, 0⟩ :: [] := rfl

/-- A running state, reached by no reset: V43.4's registers with NOISE.NEXT presented. -/
def running : State := { state (noiseSetup 1) with queue := [.command ⟨0x33000000, 0, 0⟩] }

theorem witness_StepKeepsBinary32Registers : regsWf running.regs = true ∧ ∃ t, step running = .next t :=
  ⟨by decide +kernel, ⟨_, rfl⟩⟩

theorem witness_StepKeepsTheSignalInvariant :
    regsWf running.regs = true ∧ signalInv (binary32 0) running.regs = true ∧ ∃ t, step running = .next t :=
  ⟨by decide +kernel, by decide +kernel, ⟨_, rfl⟩⟩

theorem witness_StepKeepsLevelsInUnitRange :
    regsWf running.regs = true ∧ signalInv (binary32 0) running.regs = true ∧
    unitRange (binary32 0) running.regs.par.amp.sustain = true ∧
    unitRange (binary32 0) running.regs.par.flt.adsr.sustain = true ∧
    levelInv (binary32 0) running.regs = true ∧ ∃ t, step running = .next t :=
  ⟨by decide +kernel, by decide +kernel, by decide +kernel, by decide +kernel, by decide +kernel, ⟨_, rfl⟩⟩

theorem witness_ExecAgreesWithTheValueLevel :
    running.queue = .command ⟨0x33000000, 0, 0⟩ :: [] ∧
    numOfWord (state r0 0x80000000 0x00800000).cmdA = some ⟨0⟩ ∧
    numOfWord (state r0 0x80000000 0x00800000).cmdB = some ⟨2 ^ 23⟩ := by decide +kernel

/-- The greatest number and a quarter of its spacing: a sum just inside the range; and the other premises at 1 and 1. -/
theorem witness_OperationsRoundToNearestEven :
    isBinary32 ⟨maxMag⟩ = true ∧ isBinary32 ⟨2 ^ 251⟩ = true ∧
    |numVal ⟨maxMag⟩ + numVal ⟨2 ^ 251⟩| < overflowBound ∧ |numVal ⟨maxMag⟩ - numVal ⟨2 ^ 251⟩| < overflowBound ∧
    |numVal ⟨2 ^ 149⟩ * numVal ⟨2 ^ 149⟩| < overflowBound ∧ numVal ⟨2 ^ 251⟩ ≠ 0 ∧
    |numVal ⟨maxMag⟩ / numVal ⟨2 ^ 251⟩| < overflowBound ∧ 0 < 10 ^ 6 ∧ |((1 : Int) : ℚ) / (10 ^ 6 : ℕ)| < overflowBound := by
  refine ⟨by decide +kernel, by decide +kernel, ?_, ?_, ?_, ?_, ?_, ?_, ?_⟩ <;>
    norm_num [numVal, overflowBound, maxMag, abs_of_pos]

theorem witness_BusWordsAndNumbersCorrespond :
    numOfWord 0x7F7FFFFF = some ⟨maxMag⟩ ∧ (0x7F7FFFFF : Word) ≠ 0x80000000 ∧ isBinary32 ⟨maxMag⟩ = true ∧
    (expField 0x00800000 ≠ 255 ∧ expField 0x00800000 ≠ 0 ∧ numOfWord 0x00800000 = some ⟨2 ^ 23⟩) := by decide +kernel

/-- The ends of the ranges: phases 0, 1/2 and just below 1; equal and extreme arguments; exponents -16 and 16; arguments of
TANPI at 1/4 and 7/16. -/
theorem witness_Binary32FunctionsHaveTheirNamedProperties :
    (0 ≤ numVal ⟨2 ^ 148⟩ ∧ numVal ⟨2 ^ 148⟩ < 1 ∧ numVal ⟨2 ^ 148⟩ ≤ 1 / 2 ∧ 1 / 2 ≤ numVal ⟨2 ^ 148⟩) ∧
    numVal ⟨-1⟩ ≤ numVal ⟨1⟩ ∧ (-16 : Int) ≤ -16 ∧ (-16 : Int) ≤ 16 ∧ isBinary32 ⟨-1⟩ = true ∧ isBinary32 ⟨1⟩ = true ∧
    0 < numVal ⟨2 ^ 147⟩ ∧ numVal ⟨2 ^ 147⟩ ≤ numVal ⟨7 * 2 ^ 145⟩ ∧ numVal ⟨7 * 2 ^ 145⟩ < 1 / 2 := by
  refine ⟨?_, ?_, by decide, by decide, by decide +kernel, by decide +kernel, ?_, ?_, ?_⟩ <;> norm_num [numVal]

theorem witness_ReferenceFunctionsHaveTheirNamedProperties :
    ((0 : ℝ) ≤ 1 / 2 ∧ (1 / 2 : ℝ) < 1 ∧ (1 / 2 : ℝ) ≤ 1 / 2) ∧ (-1 : ℝ) ≤ 1 ∧
    ((0 : ℝ) < 1 / 4 ∧ (1 / 4 : ℝ) ≤ 7 / 16 ∧ (7 / 16 : ℝ) < 1 / 2) := by norm_num

/-- The reset parameters are nominal, in the reference number system. -/
theorem reset_nominal : nominalParams reference (resetRegs reference).par = true := by
  norm_num [nominalParams, nominalLfo, nominalOsc, nominalNoise, nominalFlt, nominalAdsr, inRange, unitRange, resetRegs,
    reference, defaultConstants]
  decide

/-- A note of the highest nominal pitch, with an LFO sample at the end of its range. -/
theorem witness_ReferenceRunKeepsTheCoreInvariant :
    nominalRun reference
      [(.oscStart .osc1, ⟨20000, 0, 0⟩), (.oscUpd .osc1 true false, ⟨-1, 0, 0⟩), (.envOn, ⟨0, 0, 0⟩), (.envNext, ⟨0, 0, 0⟩),
        (.oscNext .osc1, ⟨0, 0, 0⟩)] (resetRegs reference) := by
  refine ⟨reset_nominal, ?_, reset_nominal, ?_, reset_nominal, rfl, reset_nominal, rfl, reset_nominal, rfl, trivial⟩ <;>
    norm_num [nominalOperands, bipolar, inRange, reference]

theorem witness_ReferenceWavesAreBounded :
    ((0 : ℝ) ≤ 0 ∧ (0 : ℝ) < 1 ∧ (0 : ℝ) ≤ 0) ∧
    (0 ≤ (oscRegs (resetRegs reference) .osc2).inc ∧ 0 ≤ (oscParams (resetRegs reference) .osc2).gain ∧
      ∃ v, (oscNextRegs reference .osc2 (resetRegs reference)).2 = .num v) :=
  ⟨by norm_num, le_refl _, le_refl _, ⟨_, rfl⟩⟩

/-- The reset registers with the noise gain at the end of its range, enabled or not. -/
noncomputable def noisy (en : BitVec 1) : Regs ℝ :=
  { resetRegs reference with
    par := { (resetRegs reference).par with noise := ⟨en, 1, 4, 1⟩ }
    noise := ⟨1, -1, 0, 4, 1⟩ }

/-- They are nominal and meet the invariant of R34. -/
theorem noisy_nominal (en : BitVec 1) : nominalParams reference (noisy en).par = true ∧ coreInv reference (noisy en) = true := by
  constructor
  · norm_num [nominalParams, nominalLfo, nominalOsc, nominalNoise, nominalFlt, nominalAdsr, inRange, unitRange, noisy,
      resetRegs, reference, defaultConstants]
    decide
  · norm_num [coreInv, signalInv, oscInv, lfoInv, phaseOk, unitRange, inRange, levelInv, envLevels, noiseInv, bipolar,
      noisy, resetRegs, reference, defaultConstants]
    decide

/-- Both cases of the enable. -/
theorem witness_ReferenceNoiseIsBounded :
    (∀ en, nominalParams reference (noisy en).par = true ∧ coreInv reference (noisy en) = true) ∧
    (∃ v, (noiseNextRegs reference (noisy 1)).2 = .num v) ∧
    ((∃ v, (noiseNextRegs reference (noisy 0)).2 = .num v) ∧ (noisy 0).par.noise.en = 0) :=
  ⟨noisy_nominal, ⟨_, rfl⟩, ⟨_, rfl⟩, rfl⟩

/-- The step of R34: the last operand of its range, from registers that are not the reset ones. -/
theorem witness_ReferenceStepKeepsTheCoreInvariant :
    nominalParams reference (noisy 1).par = true ∧
    nominalOperands reference (.fltApply true true) ⟨-65536, 1, 0⟩ = true ∧ coreInv reference (noisy 1) = true := by
  refine ⟨(noisy_nominal 1).1, ?_, (noisy_nominal 1).2⟩
  norm_num [nominalOperands, inRange, bipolar, reference]

/-- Three and four steps of a quarter second, for a release of one second. -/
theorem witness_ReleaseEndsInTheReleaseTime :
    (0 : ℝ) < 1 / 4 ∧ 0 < 3 ∧ ((3 : ℕ) : ℝ) * (1 / 4) < max 1 (1 / 2 ^ 20) ∧
    ((4 - 1 : ℕ) : ℝ) * (1 / 4) < max 1 (1 / 2 ^ 20) ∧ max 1 (1 / 2 ^ 20) ≤ ((4 : ℕ) : ℝ) * (1 / 4) := by norm_num

theorem witness_FilterIsLinearWithItsFixedPoint :
    (0 : ℝ) < 1 ∧ (0 : ℝ) < 2 ∧ (svfStep reference 1 2 1 ⟨0, 1⟩).1 = ⟨0, 1⟩ := by
  norm_num [svfStep, fltDenom, reference]

theorem witness_FilterTangentStaysInItsDomain : regsWf State.reset.regs = true := by decide +kernel

theorem witness_LatchedParametersAreNotReadLive :
    Instr.noiseNext = .oscNext .osc1 ∨ Instr.noiseNext = .oscNext .osc2 ∨ Instr.noiseNext = .noiseNext ∨
      Instr.noiseNext = .lfoNext := by decide

theorem witness_OscillatorsShareNoState :
    (∃ tf tc, Instr.oscUpd .osc1 true false = .oscUpd .osc1 tf tc) ∧ Instr.oscNext .osc2 = .oscNext .osc2 :=
  ⟨⟨true, false, rfl⟩, rfl⟩

theorem witness_EnvNextCommutesWithTheOtherUnits :
    (∀ a, Instr.fltApply true false ≠ .wrr a) ∧ (∀ a, Instr.fltApply true false ≠ .rdr a) ∧
    Instr.fltApply true false ≠ .envOn ∧ Instr.fltApply true false ≠ .envOff ∧ Instr.fltApply true false ≠ .envNext ∧
    Instr.fltApply true false ≠ .envClosed := by
  refine ⟨fun _ => by simp, fun _ => by simp, ?_, ?_, ?_, ?_⟩ <;> decide

theorem witness_ResetStateIsSilent : numOfWord 0x80000000 ≠ none ∧ numOfWord 0 ≠ none := by decide +kernel

theorem witness_NoteOnEstablishesTheNote :
    numOfWord 0x43DC0000 = some (lit32 440 1) ∧
    ({ running with queue := noteOn 0x43DC0000 ++ [PortEvent.rst] }).queue = noteOn 0x43DC0000 ++ [PortEvent.rst] :=
  ⟨by decide +kernel, rfl⟩

end Sys2Proof.Tests
end

section
/-! PROOFS. The step on a presented command, what a command leaves, and the registers' well-formedness. -/

namespace Sys2Proof.Machine

/-! ### The step on a presented command -/

/-- A presented command is accepted and its word executed (R82). -/
theorem step_command {s : State} {c : Command} {rest : List PortEvent} (h : s.queue = .command c :: rest) :
    step s = execWord c.word (accept c rest s) := by
  rcases step_cases s with ⟨hq, -⟩ | ⟨rest', hq, -⟩ | ⟨c', rest', hq, hs⟩
  · simp [h] at hq
  · simp [h] at hq
  · obtain ⟨rfl, rfl⟩ : c = c' ∧ rest = rest' := by simpa [h] using hq
    exact hs

theorem execWord_ok {w : Word} {i : Instr} (h : decode w = .ok i) (s : State) : execWord w s = exec i s := by
  simp [execWord, h]

/-- The machine's execution of a word is the block's, at the default implementation. -/
theorem execWord_eq (w : Word) (s : State) :
    execWord w s = complete s (block s.port w s.cmdA s.cmdB s.regs) := by
  unfold execWord block
  cases decode w with
  | error code => rfl
  | ok i => exact exec_eq i s

/-- The registers after a step: those of the idle machine, of reset, or of one command on the port. -/
theorem step_regs {s t : State} (h : step s = .next t) :
    t.regs = s.regs ∨ t.regs = State.reset.regs ∨
      ∃ n w a b, t.regs = (block (binary32Port n) w a b s.regs).1 := by
  rcases step_cases s with ⟨-, hs⟩ | ⟨rest, -, hs⟩ | ⟨c, rest, -, hs⟩ <;> rw [hs] at h
  · cases h; exact .inl rfl
  · cases h; exact .inr (.inl rfl)
  · rw [execWord_eq] at h
    exact .inr (.inr ⟨s.count + 1, c.word, c.a, c.b, regs_of_complete _ _ _ h⟩)

/-- Settles O3: the step executes the accepted state's word, which decodes. -/
theorem stepRunsTheDecodedCommand : Obligations.StepRunsTheDecodedCommand := by
  intro s c rest i hq hd
  rw [step_command hq, execWord_ok hd]
  rfl

/-- Settles O36: the machine completes every command, and completing changes the registers and the response port alone. -/
theorem everyCommandAnswersAndLeavesThePort : Obligations.EveryCommandAnswersAndLeavesThePort :=
  fun i s => ⟨_, _, exec_eq i s⟩

/-! ### What a command leaves -/

/-- What a completion on the registers `r` can be: a response, or a reject that changes no register (R8, R210). -/
def RespondsOrRejects {α : Type} {w : Nat} (r : Regs α) (x : Completion α w) : Prop :=
  (∃ regs d, x = respond regs d) ∨ ∃ code, x = reject code r

section
variable {α : Type} (C : PortConfig α) (r : Regs α)

theorem respondsOrRejects_respond {w : Nat} (r regs : Regs α) (d : BitVec w) : RespondsOrRejects r (respond regs d) :=
  .inl ⟨regs, d, rfl⟩

theorem respondsOrRejects_reject {w : Nat} (r : Regs α) (c : RejectCode) :
    RespondsOrRejects r (reject (w := w) c r) := .inr ⟨c, rfl⟩

theorem respondsOrRejects_answer (x : Regs α × RegVal α) : RespondsOrRejects r (answer C x) :=
  respondsOrRejects_respond _ _ _

theorem respondsOrRejects_withOperand (bus : BitVec C.numW) {run : α → Completion α C.numW}
    (h : ∀ v, RespondsOrRejects r (run v)) : RespondsOrRejects r (withOperand C bus r run) := by
  rcases withOperand_cases C bus r run with ⟨-, e⟩ | ⟨v, -, e⟩ <;> rw [e]
  · exact respondsOrRejects_reject _ _
  · exact h v

theorem respondsOrRejects_wrr (addr : Nat) (a : BitVec C.numW) : RespondsOrRejects r (wrrCommand C addr a r) := by
  unfold wrrCommand
  split
  · exact respondsOrRejects_reject _ _
  · exact respondsOrRejects_reject _ _
  · split
    · exact respondsOrRejects_withOperand C r a fun v => respondsOrRejects_respond _ _ _
    · exact respondsOrRejects_respond _ _ _

theorem respondsOrRejects_rdr (addr : Nat) : RespondsOrRejects r (rdrCommand C addr r) := by
  unfold rdrCommand
  split
  · exact respondsOrRejects_reject _ _
  · exact respondsOrRejects_respond _ _ _

theorem respondsOrRejects_fltApply (tf tq : Bool) (a b : BitVec C.numW) :
    RespondsOrRejects r (fltApplyCommand C tf tq a b r) := by
  refine respondsOrRejects_withOperand C r a fun x => respondsOrRejects_withOperand C r b fun lfo => ?_
  split
  · exact respondsOrRejects_respond _ _ _
  · exact respondsOrRejects_answer _ _ _

/-- Every accepted word responds, or rejects with the registers untouched. -/
theorem respondsOrRejects_runCommand (i : Instr) (a b : BitVec C.numW) :
    RespondsOrRejects r (runCommand C i a b r) := by
  cases i with
  | nop => exact respondsOrRejects_respond _ _ _
  | wrr addr => exact respondsOrRejects_wrr C r addr a
  | rdr addr => exact respondsOrRejects_rdr C r addr
  | oscStart k | oscUpd k tf tc =>
    exact respondsOrRejects_withOperand C r a fun _ => respondsOrRejects_answer _ _ _
  | fltApply tf tq => exact respondsOrRejects_fltApply C r tf tq a b
  | _ => exact respondsOrRejects_answer _ _ _

theorem respondsOrRejects_block (w : Word) (a b : BitVec C.numW) : RespondsOrRejects r (block C w a b r) := by
  unfold block
  split
  · exact respondsOrRejects_reject _ _
  · exact respondsOrRejects_runCommand C r _ a b

end

/-- A completion with an error is a reject. -/
theorem RespondsOrRejects.reject_of_err {α : Type} {w : Nat} {r : Regs α} {x : Completion α w}
    (h : RespondsOrRejects r x) (he : x.2.err = true) : ∃ code, x = reject code r := by
  rcases h with ⟨regs, d, rfl⟩ | h
  · exact absurd he (by simp [respond])
  · exact h

/-- An error on the machine's response port: the registers are kept and the data are a reject code (R210, R211). -/
theorem complete_err {s t : State} {x : Completion Num32 32} (h : RespondsOrRejects s.regs x)
    (hc : complete s x = .next t) {d : Word} (hr : t.rsp = some ⟨true, d⟩) :
    t.regs = s.regs ∧ ∃ code, d = rejectWord code := by
  have hx : x.2 = ⟨true, d⟩ := Option.some.inj ((rsp_of_complete s t x hc).symm.trans hr)
  obtain ⟨code, rfl⟩ := h.reject_of_err (congrArg Response.err hx)
  refine ⟨regs_of_complete s t _ hc, code, ?_⟩
  rw [← BitVec.setWidth_eq (rejectWord code)]
  exact (congrArg Response.data hx).symm

/-- Settles O37: every accepted word responds, or rejects with the registers untouched, and only a reject has an error. -/
theorem rejectLeavesEveryRegister : Obligations.RejectLeavesEveryRegister := by
  refine ⟨fun α C w a b r he => ?_, fun s t c rest d hq hs hr => ?_⟩
  · obtain ⟨code, hx⟩ := (respondsOrRejects_block C r w a b).reject_of_err he
    rw [hx]
    rfl
  · rw [step_command hq, execWord_eq] at hs
    obtain ⟨hregs, code, rfl⟩ := complete_err (respondsOrRejects_block _ _ _ _ _) hs hr
    exact ⟨hregs, rejectWord_range code⟩

/-! ### Registers that hold binary32 numbers -/

/-- The times and levels of an envelope are binary32 numbers. -/
structure EnvWf (e : Env Num32) : Prop where
  t : isBinary32 e.t = true
  level : isBinary32 e.level = true
  rel0 : isBinary32 e.rel0 = true

/-- The state of an oscillator is made of binary32 numbers. -/
structure OscWf (o : OscState Num32) : Prop where
  phase : isBinary32 o.phase = true
  base : isBinary32 o.base = true
  inc : isBinary32 o.inc = true

/-- The latched values and the filter of the noise generator are binary32 numbers. -/
structure NoiseWf (n : NoiseState Num32) : Prop where
  lp : isBinary32 n.lp = true
  a : isBinary32 n.a = true
  dec : isBinary32 n.dec = true
  dt : isBinary32 n.dt = true

/-- `regsWf` unit by unit, so that a command's proof speaks of the units it writes alone. -/
structure UnitsWf (r : Regs Num32) : Prop where
  par : ∀ p, valWf (readParam r p) = true
  envA : EnvWf r.envA
  osc1 : OscWf r.osc1
  osc2 : OscWf r.osc2
  noise : NoiseWf r.noise
  envN : EnvWf r.envN
  lfo : isBinary32 r.lfo.phase = true ∧ isBinary32 r.lfo.inc = true
  flt : isBinary32 r.flt.s1 = true ∧ isBinary32 r.flt.s2 = true
  envF : EnvWf r.envF

theorem regsWf_iff_forall (r : Regs Num32) : regsWf r = true ↔ ∀ x, valWf (readReg r x) = true := by
  simp [regsWf, mem_allRegs]

/-- The registers of the REG space are those of the units. -/
theorem regsWf_iff (r : Regs Num32) : regsWf r = true ↔ UnitsWf r := by
  rw [regsWf_iff_forall]
  constructor
  · intro h
    have hs : ∀ q, valWf (readState r q) = true := fun q => h (.state q)
    exact
      { par := fun p => h (.param p)
        envA := ⟨hs .envAT, hs .envALevel, hs .envARel0⟩
        osc1 := ⟨hs .osc1Phase, hs .osc1Base, hs .osc1Inc⟩
        osc2 := ⟨hs .osc2Phase, hs .osc2Base, hs .osc2Inc⟩
        noise := ⟨hs .noiseLp, hs .noiseA, hs .noiseDec, hs .noiseDt⟩
        envN := ⟨hs .envNT, hs .envNLevel, hs .envNRel0⟩
        lfo := ⟨hs .lfoPhase, hs .lfoInc⟩
        flt := ⟨hs .fltS1, hs .fltS2⟩
        envF := ⟨hs .envFT, hs .envFLevel, hs .envFRel0⟩ }
  · intro h x
    cases x with
    | param p => exact h.par p
    | state q =>
      cases q with
      | envAStage | envNStage | envFStage | noiseRng => rfl
      | envAT => exact h.envA.t
      | envALevel => exact h.envA.level
      | envARel0 => exact h.envA.rel0
      | osc1Phase => exact h.osc1.phase
      | osc1Base => exact h.osc1.base
      | osc1Inc => exact h.osc1.inc
      | osc2Phase => exact h.osc2.phase
      | osc2Base => exact h.osc2.base
      | osc2Inc => exact h.osc2.inc
      | noiseLp => exact h.noise.lp
      | noiseA => exact h.noise.a
      | noiseDec => exact h.noise.dec
      | noiseDt => exact h.noise.dt
      | envNT => exact h.envN.t
      | envNLevel => exact h.envN.level
      | envNRel0 => exact h.envN.rel0
      | lfoPhase => exact h.lfo.1
      | lfoInc => exact h.lfo.2
      | fltS1 => exact h.flt.1
      | fltS2 => exact h.flt.2
      | envFT => exact h.envF.t
      | envFLevel => exact h.envF.level
      | envFRel0 => exact h.envF.rel0

/-! ### Read over write -/

section
variable {α : Type} (r : Regs α) (p : ParamReg)

theorem readParam_writeNum_same (v : α) (h : paramIsNum p = true) : readParam (writeNum r p v) p = .num v := by
  cases p <;> first | rfl | cases h

theorem readParam_writeNum_other (v : α) {q : ParamReg} (h : q ≠ p) :
    readParam (writeNum r p v) q = readParam r q := by
  cases p <;> cases q <;> first | rfl | exact absurd rfl h

/-- An integer register is not written as a number, and holds an integer. -/
theorem writeNum_of_int (v : α) (h : paramIsNum p = false) : writeNum r p v = r := by
  cases p <;> first | rfl | cases h

theorem readParam_of_int (h : paramIsNum p = false) : ∃ w, readParam r p = .int w := by
  cases p <;> first | exact ⟨_, rfl⟩ | cases h

/-- A numeric register is not written as an integer. -/
theorem writeInt_of_num {n : Nat} (w : BitVec n) (h : paramIsNum p = true) : writeInt r p w = r := by
  cases p <;> first | rfl | cases h

theorem readParam_writeInt_other {n : Nat} (w : BitVec n) {q : ParamReg} (h : q ≠ p) :
    readParam (writeInt r p w) q = readParam r q := by
  cases p <;> cases q <;> first | rfl | exact absurd rfl h
end

/-! ### Every value written is a binary32 number -/

theorem isBinary32_zero : isBinary32 ⟨0⟩ = true := by decide +kernel

theorem isBinary32_one : isBinary32 ⟨2 ^ 149⟩ = true := by decide +kernel

theorem fracField_lt (w : Word) : fracField w < 2 ^ 23 := (w.extractLsb' 0 23).isLt

theorem expField_lt (w : Word) : expField w < 2 ^ 8 := (w.extractLsb' 23 8).isLt

theorem isFiniteWord_iff (w : Word) : isFiniteWord w = true ↔ expField w ≠ 255 := by simp [isFiniteWord]

/-- The magnitude of a finite word has 24 significant bits and is in range. -/
theorem sigBits_wordMag (w : Word) : SigBits (wordMag w) := by
  have hf := fracField_lt w
  unfold wordMag
  split
  · simpa using sigBits_mul_pow 0 (by omega : fracField w ≤ 2 ^ 24)
  · exact sigBits_mul_pow _ (by omega)

theorem wordMag_le_maxMag {w : Word} (h : expField w ≠ 255) : wordMag w ≤ maxMag := by
  have hf := fracField_lt w
  have he := expField_lt w
  unfold wordMag
  split
  · exact (by omega : fracField w ≤ 2 ^ 24 - 1).trans (Nat.le_mul_of_pos_right _ (Nat.two_pow_pos 253))
  · exact Nat.mul_le_mul (by omega) (Nat.pow_le_pow_right (by decide) (by omega))

theorem numOfWord_eq_some {w : Word} {x : Num32} (h : numOfWord w = some x) :
    expField w ≠ 255 ∧ x = ⟨if w.getLsbD 31 then -(wordMag w : Int) else wordMag w⟩ := by
  unfold numOfWord at h
  split at h
  · rename_i hw
    exact ⟨(isFiniteWord_iff w).1 hw, (Option.some.inj h).symm⟩
  · cases h

/-- An operand is a binary32 number (R11). -/
theorem isBinary32_of_numOfWord {w : Word} {x : Num32} (h : numOfWord w = some x) : isBinary32 x = true := by
  obtain ⟨hw, rfl⟩ := numOfWord_eq_some h
  have habs : (if w.getLsbD 31 then -(wordMag w : Int) else wordMag w).natAbs = wordMag w := by split <;> simp
  rw [isBinary32_iff, habs]
  exact ⟨sigBits_wordMag w, wordMag_le_maxMag hw⟩

theorem envWf_envOn (n : Nat) : EnvWf (envOn (binary32 n)) := ⟨isBinary32_zero, isBinary32_zero, isBinary32_zero⟩

theorem envWf_envOff (n : Nat) {e : Env Num32} (h : EnvWf e) : EnvWf (envOff (binary32 n) e) :=
  ⟨isBinary32_zero, h.level, h.level⟩

theorem envWf_envNext (n : Nat) {e : Env Num32} {p : Adsr Num32} (dt : Num32) (h : EnvWf e)
    (hs : isBinary32 p.sustain = true) : EnvWf (envNext (binary32 n) e p dt) := by
  have ht : isBinary32 ((binary32 n).add e.t dt) = true := isBinary32_add32 _ _ _
  rcases envNext_cases (binary32 n) e p dt with ⟨-, he⟩ | ⟨-, -, he⟩ | ⟨-, -, he⟩ | ⟨-, -, he⟩ | ⟨-, -, he⟩ | ⟨-, he⟩ |
    ⟨-, -, he⟩ | ⟨-, -, he⟩ <;> rw [he]
  · exact ⟨h.t, isBinary32_zero, h.rel0⟩
  · exact ⟨isBinary32_zero, isBinary32_one, h.rel0⟩
  · exact ⟨ht, isBinary32_div32 _ _ _, h.rel0⟩
  · exact ⟨isBinary32_zero, hs, h.rel0⟩
  · exact ⟨ht, isBinary32_sub32 _ _ _, h.rel0⟩
  · exact ⟨h.t, hs, h.rel0⟩
  · exact ⟨isBinary32_zero, isBinary32_zero, h.rel0⟩
  · exact ⟨ht, isBinary32_mul32 _ _ _, h.rel0⟩

section
variable {r : Regs Num32} (n : Nat)

theorem UnitsWf.osc (h : UnitsWf r) (k : OscId) : OscWf (oscRegs r k) :=
  match k with
  | .osc1 => h.osc1
  | .osc2 => h.osc2

theorem UnitsWf.setOsc (h : UnitsWf r) (k : OscId) {o : OscState Num32} (ho : OscWf o) : UnitsWf (setOscRegs r k o) :=
  match k with
  | .osc1 => { h with osc1 := ho }
  | .osc2 => { h with osc2 := ho }

theorem UnitsWf.writeNum (h : UnitsWf r) (p : ParamReg) {v : Num32} (hv : isBinary32 v = true) :
    UnitsWf (writeNum r p v) := by
  refine { h with par := fun q => ?_ }
  by_cases hq : q = p
  · subst hq
    cases hp : paramIsNum q with
    | true =>
      rw [readParam_writeNum_same r q v hp]
      exact hv
    | false =>
      rw [writeNum_of_int r q v hp]
      exact h.par q
  · rw [readParam_writeNum_other r p v hq]
    exact h.par q

theorem UnitsWf.writeInt (h : UnitsWf r) (p : ParamReg) {m : Nat} (w : BitVec m) : UnitsWf (writeInt r p w) := by
  refine { h with par := fun q => ?_ }
  by_cases hq : q = p
  · subst hq
    cases hp : paramIsNum q with
    | true =>
      rw [writeInt_of_num r q w hp]
      exact h.par q
    | false =>
      obtain ⟨u, hu⟩ := readParam_of_int (Machine.writeInt r q w) q hp
      rw [hu]
      rfl
  · rw [readParam_writeInt_other r p w hq]
    exact h.par q

/-! ### Every command keeps the registers binary32 -/

/-- A command with an operand either leaves the registers or runs on a binary32 number. -/
theorem unitsWf_withOperand (h : UnitsWf r) (a : Word) {run : Num32 → Completion Num32 32}
    (hrun : ∀ v, isBinary32 v = true → UnitsWf (run v).1) : UnitsWf (withOperand (binary32Port n) a r run).1 := by
  rcases withOperand_cases (binary32Port n) a r run with ⟨-, he⟩ | ⟨v, hv, he⟩ <;> rw [he]
  · exact h
  · exact hrun v (isBinary32_of_numOfWord hv)

theorem unitsWf_wrr (h : UnitsWf r) (addr : Nat) (a : Word) : UnitsWf (wrrCommand (binary32Port n) addr a r).1 := by
  unfold wrrCommand
  split
  · exact h
  · exact h
  · split
    · exact unitsWf_withOperand n h a fun v hv => h.writeNum _ hv
    · exact h.writeInt _ _

theorem unitsWf_rdr (h : UnitsWf r) (addr : Nat) : UnitsWf (rdrCommand (binary32Port n) addr r).1 := by
  unfold rdrCommand
  split <;> exact h

theorem unitsWf_noiseUpd (h : UnitsWf r) : UnitsWf (noiseUpdRegs (binary32 n) r).1 := by
  have hdec : ∀ held : Bool, isBinary32 (if held then (binary32 n).nDecHeld else r.par.noise.dur) = true := fun held =>
    match held with
    | true => isBinary32_lit32 _ _
    | false => h.par .nDur
  exact { h with noise := ⟨h.noise.lp, isBinary32_div32 _ _ _, hdec _, isBinary32_div32 _ _ _⟩ }

theorem unitsWf_noiseNext (h : UnitsWf r) : UnitsWf (noiseNextRegs (binary32 n) r).1 := by
  unfold noiseNextRegs
  split
  · exact h
  · exact { h with
      noise := ⟨isBinary32_add32 _ _ _, h.noise.a, h.noise.dec, h.noise.dt⟩
      envN := envWf_envNext n _ h.envN isBinary32_zero }

theorem isBinary32_svfStep (g r2 x : Num32) (f : FltState Num32) :
    isBinary32 (svfStep (binary32 n) g r2 x f).1.s1 = true ∧ isBinary32 (svfStep (binary32 n) g r2 x f).1.s2 = true := by
  simp only [svfStep, binary32_add]
  exact ⟨isBinary32_add32 _ _ _, isBinary32_add32 _ _ _⟩

theorem UnitsWf.setFilter (h : UnitsWf r) {e : Env Num32} {f : FltState Num32} (he : EnvWf e)
    (hf : isBinary32 f.s1 = true ∧ isBinary32 f.s2 = true) : UnitsWf { r with envF := e, flt := f } :=
  { h with envF := he, flt := hf }

theorem unitsWf_fltApply (h : UnitsWf r) (tf tq : Bool) (x lfo : Num32) :
    UnitsWf (fltApplyRegs (binary32 n) tf tq x lfo r).1 := by
  unfold fltApplyRegs
  split
  · exact h
  · exact h.setFilter (envWf_envNext n _ h.envF (h.par .fSustain)) (isBinary32_svfStep n _ _ _ _)

theorem unitsWf_fltApplyCommand (h : UnitsWf r) (tf tq : Bool) (a b : Word) :
    UnitsWf (fltApplyCommand (binary32Port n) tf tq a b r).1 := by
  refine unitsWf_withOperand n h a fun x _ => unitsWf_withOperand n h b fun lfo _ => ?_
  split
  · exact h
  · exact unitsWf_fltApply n h tf tq x lfo

/-- Every command of the machine keeps the numeric registers binary32 numbers. -/
theorem unitsWf_runCommand (h : UnitsWf r) (i : Instr) (a b : Word) :
    UnitsWf (runCommand (binary32Port n) i a b r).1 := by
  cases i with
  | nop | envClosed | lfoQry => exact h
  | wrr addr => exact unitsWf_wrr n h addr a
  | rdr addr => exact unitsWf_rdr n h addr
  | envOn => exact { h with envA := envWf_envOn n }
  | envOff => exact { h with envA := envWf_envOff n h.envA }
  | envNext => exact { h with envA := envWf_envNext n _ h.envA (h.par .aSustain) }
  | oscStart k =>
    exact unitsWf_withOperand n h a fun v hv => h.setOsc k ⟨isBinary32_lit32 _ _, hv, (h.osc k).inc⟩
  | oscUpd k tf tc =>
    exact unitsWf_withOperand n h a fun v _ => h.setOsc k ⟨(h.osc k).phase, (h.osc k).base, isBinary32_div32 _ _ _⟩
  | oscNext k => exact h.setOsc k ⟨isBinary32_sub32 _ _ _, (h.osc k).base, (h.osc k).inc⟩
  | noiseStart =>
    exact { h with
      noise := ⟨isBinary32_zero, h.noise.a, h.noise.dec, h.noise.dt⟩
      envN := envWf_envOn n }
  | noiseStop => exact { h with envN := envWf_envOff n h.envN }
  | noiseUpd => exact unitsWf_noiseUpd n h
  | noiseNext => exact unitsWf_noiseNext n h
  | lfoUpd => exact { h with lfo := ⟨h.lfo.1, isBinary32_div32 _ _ _⟩ }
  | lfoNext => exact { h with lfo := ⟨isBinary32_sub32 _ _ _, h.lfo.2⟩ }
  | fltStart => exact { h with envF := envWf_envOn n, flt := ⟨isBinary32_zero, isBinary32_zero⟩ }
  | fltStop => exact { h with envF := envWf_envOff n h.envF }
  | fltApply tf tq => exact unitsWf_fltApplyCommand n h tf tq a b

theorem unitsWf_block (h : UnitsWf r) (w a b : Word) : UnitsWf (block (binary32Port n) w a b r).1 := by
  unfold block
  split
  · exact h
  · exact unitsWf_runCommand n h _ a b

end

theorem regsWf_reset : regsWf State.reset.regs = true := by decide +kernel

/-- Settles O40: unit by unit, every value a command writes is an operand, another register, or the result of an operation that
rounds to binary32. -/
theorem stepKeepsBinary32Registers : Obligations.StepKeepsBinary32Registers := by
  intro s t hwf hs
  rcases step_regs hs with h | h | ⟨n, w, a, b, h⟩ <;> rw [h]
  · exact hwf
  · exact regsWf_reset
  · exact (regsWf_iff _).2 (unitsWf_block n ((regsWf_iff _).1 hwf) w a b)

/-! ### The machine and the commands on values -/

/-- The next state the value level gives: its registers, and its value or code on the response port. -/
def valueOutcome (s : State) (bypass : Bool) (res : Result Num32) : Host.Outcome State Fault Refusal :=
  .next { s with regs := res.1, rsp := some (responseOf bypass s.cmdA res.2) }

section
variable {s : State} {a b : Num32}

theorem complete_answer_done (s : State) (x : Regs Num32 × RegVal Num32) :
    complete s (answer s.port x) = valueOutcome s false (done x) := complete_answer s x

theorem execWrr_value (ha : numOfWord s.cmdA = some a) (addr : Nat) :
    execWrr addr s = valueOutcome s false (wrrRegs addr ⟨a, b, s.cmdA⟩ s.regs) := by
  unfold execWrr wrrCommand wrrRegs
  cases regAt? addr with
  | none => exact complete_reject s .badAddr
  | some x =>
    cases x with
    | state q => exact complete_reject s .roWrite
    | param p =>
      dsimp only
      cases paramIsNum p with
      | true => exact complete_operand_some ha _
      | false => rfl

theorem execRdr_value (addr : Nat) : execRdr addr s = valueOutcome s false (rdrRegs addr s.regs) := by
  unfold execRdr rdrCommand rdrRegs
  cases regAt? addr with
  | none => exact complete_reject s .badAddr
  | some x => exact complete_value s s.regs (readReg s.regs x)

theorem execFltApply_value (ha : numOfWord s.cmdA = some a) (hb : numOfWord s.cmdB = some b) (tf tq : Bool) :
    execFltApply tf tq s =
      valueOutcome s (s.regs.par.flt.en == 0) (done (fltApplyRegs s.config tf tq a b s.regs)) := by
  unfold execFltApply fltApplyCommand
  rw [complete_operand_some ha, complete_operand_some hb]
  by_cases hen : s.regs.par.flt.en = 0
  · simp only [hen, fltApplyRegs]
    rfl
  · rw [if_neg hen, beq_false_of_ne hen]
    exact complete_answer_done s _

/-- On operands that denote numbers the machine's command is the command on values. -/
theorem exec_value (ha : numOfWord s.cmdA = some a) (hb : numOfWord s.cmdB = some b) (i : Instr) :
    exec i s = valueOutcome s (isBypass i s.regs) (apply s.config i ⟨a, b, s.cmdA⟩ s.regs) := by
  cases i with
  | nop => rfl
  | wrr addr => exact execWrr_value ha addr
  | rdr addr => exact execRdr_value addr
  | oscStart k | oscUpd k tf tc => exact (complete_operand_some ha _).trans (complete_answer_done s _)
  | fltApply tf tq => exact execFltApply_value ha hb tf tq
  | _ => exact complete_answer_done s _
end

/-- Settles O44: the dispatcher is the block's, and a command whose operands denote numbers runs on those numbers. -/
theorem execAgreesWithTheValueLevel : Obligations.ExecAgreesWithTheValueLevel := by
  refine ⟨exec_eq, fun s c rest hq => ?_, fun i s a b ha hb => exec_value ha hb i⟩
  rw [step_command hq, execWord_eq]
  rfl

end Sys2Proof.Machine
end

section
/-! PROOFS. The reset state and the parameters. -/

namespace Sys2Proof.Machine

/-- The constraints on parameters do not read the command's number. -/
theorem admissible_binary32 (n : Nat) : admissible (binary32 n) = admissible (binary32 0) := rfl

theorem coreInv_resetRegs_reference : coreInv reference (resetRegs reference) = true := by
  norm_num [coreInv, signalInv, oscInv, lfoInv, phaseOk, unitRange, inRange, levelInv, envLevels, noiseInv, bipolar,
    resetRegs, reference, defaultConstants]
  decide

theorem admissible_reference : admissible reference = true := by
  norm_num [admissible, phaseOk, reference, defaultConstants]
  decide

/-- Settles O43: binary32 by evaluation, the reference number system by arithmetic. -/
theorem resetMeetsTheInvariants : Obligations.ResetMeetsTheInvariants := by
  refine ⟨by decide +kernel, by decide +kernel, by decide +kernel, coreInv_resetRegs_reference, fun n => ?_,
    admissible_reference⟩
  exact (admissible_binary32 n).trans (by decide +kernel)

end Sys2Proof.Machine
end

section
/-! PROOFS. The functions of the reference number system (R12 to R16) -/

namespace Sys2Proof.Machine

theorem reference_sin2pi (p : ℝ) : reference.sin2pi p = Real.sin (2 * Real.pi * p) := rfl
theorem reference_twoPi : reference.twoPi = 2 * Real.pi := rfl

/-- The quarter turns of R12. -/
theorem reference_sin2pi_points :
    reference.sin2pi 0 = 0 ∧ reference.sin2pi (1 / 4) = 1 ∧ reference.sin2pi (1 / 2) = 0 ∧
      reference.sin2pi (3 / 4) = -1 := by
  simp only [reference_sin2pi]
  refine ⟨by simp, ?_, ?_, ?_⟩
  · rw [show 2 * Real.pi * (1 / 4) = Real.pi / 2 by ring, Real.sin_pi_div_two]
  · rw [show 2 * Real.pi * (1 / 2) = Real.pi by ring, Real.sin_pi]
  · rw [show 2 * Real.pi * (3 / 4) = Real.pi / 2 + Real.pi by ring, Real.sin_add_pi, Real.sin_pi_div_two]

theorem reference_sin2pi_nonneg {p : ℝ} (h0 : 0 ≤ p) (h1 : p ≤ 1 / 2) : 0 ≤ reference.sin2pi p :=
  Real.sin_nonneg_of_nonneg_of_le_pi (by positivity) (by nlinarith [Real.pi_pos])

/-- The second half turn is the first one with the sign changed. -/
theorem reference_sin2pi_nonpos {p : ℝ} (h0 : 1 / 2 ≤ p) (h1 : p < 1) : reference.sin2pi p ≤ 0 := by
  have hturn : reference.sin2pi p = -reference.sin2pi (p - 1 / 2) := by
    rw [reference_sin2pi, reference_sin2pi, ← Real.sin_add_pi]
    ring_nf
  have := reference_sin2pi_nonneg (p := p - 1 / 2) (by linarith) (by linarith)
  linarith

theorem reference_tanh_mono {x y : ℝ} (h : x ≤ y) : reference.tanh x ≤ reference.tanh y := by
  have mem : ∀ z, Real.tanh z ∈ Set.Ioo (-1) 1 := fun z => ⟨Real.neg_one_lt_tanh z, Real.tanh_lt_one z⟩
  refine (Real.artanh_le_artanh_iff (mem x) (mem y)).1 ?_
  rwa [Real.artanh_tanh, Real.artanh_tanh]

theorem reference_tanpi_pos {x : ℝ} (h0 : 0 < x) (h1 : x < 1 / 2) : 0 < reference.tanpi x :=
  Real.tan_pos_of_pos_of_lt_pi_div_two (by positivity) (by nlinarith [Real.pi_pos])

theorem reference_tanpi_mono {x y : ℝ} (h0 : 0 < x) (h : x ≤ y) (h1 : y < 1 / 2) :
    reference.tanpi x ≤ reference.tanpi y := by
  have hpi := Real.pi_pos
  refine Real.strictMonoOn_tan.monotoneOn ⟨?_, ?_⟩ ⟨?_, ?_⟩ (mul_le_mul_of_nonneg_left h hpi.le) <;> nlinarith

theorem reference_twoPi_bounds : 6.2831 < reference.twoPi ∧ reference.twoPi < 6.2832 := by
  have h1 := Real.pi_gt_d6
  have h2 := Real.pi_lt_d6
  constructor <;> rw [reference_twoPi] <;> linarith

/-- Settles O48, from the properties of sine, tangent, hyperbolic tangent and real powers. -/
theorem referenceFunctionsHaveTheirNamedProperties : Obligations.ReferenceFunctionsHaveTheirNamedProperties :=
  ⟨reference_sin2pi_points,
    fun _ h0 h1 => ⟨Real.abs_sin_le_one _, reference_sin2pi_nonneg h0, fun h => reference_sin2pi_nonpos h h1⟩,
    Real.tanh_zero, Real.tanh_neg, fun _ _ => reference_tanh_mono, Real.abs_tanh_lt_one,
    Real.rpow_intCast 2, Real.rpow_pos_of_pos two_pos,
    fun _ _ => Real.rpow_le_rpow_of_exponent_le one_le_two, Real.rpow_add two_pos,
    (congrArg Real.tan (mul_one_div _ _)).trans Real.tan_pi_div_four, fun _ => reference_tanpi_pos,
    fun _ _ => reference_tanpi_mono, rfl, reference_twoPi_bounds⟩

end Sys2Proof.Machine
end

section
/-! PROOFS. Exact values, and rounding to nearest even (R10) -/

namespace Sys2Proof.Machine

/-! ### Exact values -/

theorem numVal_eq_iff_mul {x : Num32} {v : ℚ} : numVal x = v ↔ (x.units : ℚ) = v * 2 ^ 149 :=
  div_eq_iff (by positivity)

@[simp] theorem numVal_le_numVal {x y : Num32} : numVal x ≤ numVal y ↔ x.units ≤ y.units := by
  rw [numVal, numVal, div_le_div_iff_of_pos_right (by positivity), Int.cast_le]

@[simp] theorem numVal_lt_numVal {x y : Num32} : numVal x < numVal y ↔ x.units < y.units := by
  rw [numVal, numVal, div_lt_div_iff_of_pos_right (by positivity), Int.cast_lt]

theorem numVal_zero : numVal ⟨0⟩ = 0 := by simp [numVal]
theorem numVal_half : numVal ⟨2 ^ 148⟩ = 1 / 2 := by norm_num [numVal]
theorem numVal_one : numVal ⟨2 ^ 149⟩ = 1 := by norm_num [numVal]
theorem numVal_neg (n : Int) : numVal ⟨-n⟩ = -numVal ⟨n⟩ := by simp [numVal, neg_div]

theorem numVal_nonneg {x : Num32} : 0 ≤ numVal x ↔ 0 ≤ x.units := by rw [← numVal_zero, numVal_le_numVal]
theorem numVal_nonpos {x : Num32} : numVal x ≤ 0 ↔ x.units ≤ 0 := by rw [← numVal_zero, numVal_le_numVal]
theorem numVal_pos {x : Num32} : 0 < numVal x ↔ 0 < x.units := by rw [← numVal_zero, numVal_lt_numVal]
theorem numVal_lt_half {x : Num32} : numVal x < 1 / 2 ↔ x.units < 2 ^ 148 := by rw [← numVal_half, numVal_lt_numVal]
theorem numVal_le_half {x : Num32} : numVal x ≤ 1 / 2 ↔ x.units ≤ 2 ^ 148 := by rw [← numVal_half, numVal_le_numVal]
theorem half_le_numVal {x : Num32} : 1 / 2 ≤ numVal x ↔ 2 ^ 148 ≤ x.units := by rw [← numVal_half, numVal_le_numVal]

theorem abs_numVal_le_one {x : Num32} : |numVal x| ≤ 1 ↔ -2 ^ 149 ≤ x.units ∧ x.units ≤ 2 ^ 149 := by
  rw [abs_le, ← numVal_one, ← numVal_neg, numVal_le_numVal, numVal_le_numVal]

/-! ### The nearest magnitude -/

/-- A magnitude with 24 significant bits is at most the lower candidate of rounding, or at least the upper one. -/
theorem sigBits_le_or_ge {B : Nat} (hB : SigBits B) (n d : Nat) :
    B ≤ n / (d * spacing (n / d)) * spacing (n / d) ∨ (n / (d * spacing (n / d)) + 1) * spacing (n / d) ≤ B := by
  rcases le_or_gt B (n / (d * spacing (n / d)) * spacing (n / d)) with h | h
  · exact .inl h
  · obtain ⟨c, hc⟩ := spacing_dvd_of_ge hB h.le
    rw [hc, Nat.mul_comm _ c] at h ⊢
    exact .inr (Nat.mul_le_mul_right _ (Nat.lt_of_mul_lt_mul_right h))

theorem spacing_mul_pow {q : Nat} (e : Nat) (h0 : 2 ^ 23 ≤ q) (h1 : q < 2 ^ 24) : spacing (q * 2 ^ e) = 2 ^ e := by
  have hlog : Nat.log2 (q * 2 ^ e) = 23 + e := by
    rw [Nat.log2_eq_iff (by positivity), Nat.pow_add, Nat.add_right_comm, Nat.pow_add]
    exact ⟨Nat.mul_le_mul_right _ h0, Nat.mul_lt_mul_of_pos_right h1 (Nat.two_pow_pos e)⟩
  rw [spacing, hlog, Nat.add_sub_cancel_left]

theorem spacing_eq_one {m : Nat} (h : m < 2 ^ 24) : spacing m = 1 := by
  have hlog : Nat.log2 m ≤ 23 := by
    rcases Nat.eq_zero_or_pos m with rfl | hm
    · simp
    · exact Nat.le_of_lt_succ ((Nat.log2_lt (by omega)).2 h)
  rw [spacing, Nat.sub_eq_zero_of_le hlog, Nat.pow_zero]

/-- A magnitude of at least 24 bits is a significand of 24 bits times a power of two. -/
theorem sigBits_normal {m : Nat} (h : SigBits m) (hm : 2 ^ 23 ≤ m) :
    ∃ c e, m = c * 2 ^ e ∧ 2 ^ 23 ≤ c ∧ c < 2 ^ 24 := by
  obtain ⟨c, hc⟩ := h
  have hlog : 23 ≤ Nat.log2 m := (Nat.log2_two_pow (n := 23)).ge.trans (log2_mono hm)
  have hlo : 2 ^ 23 * 2 ^ (Nat.log2 m - 23) ≤ m := by
    rw [← Nat.pow_add, Nat.add_sub_cancel' hlog]
    exact Nat.log2_self_le (by omega)
  have hhi : m < 2 ^ 24 * 2 ^ (Nat.log2 m - 23) := by
    rw [← Nat.pow_add, (by omega : 24 + (Nat.log2 m - 23) = Nat.log2 m + 1)]
    exact Nat.lt_log2_self
  have hc' : m = c * 2 ^ (Nat.log2 m - 23) := hc.trans (Nat.mul_comm _ _)
  generalize Nat.log2 m - 23 = e at *
  subst hc'
  exact ⟨c, e, rfl, Nat.le_of_mul_le_mul_right hlo (Nat.two_pow_pos e), Nat.lt_of_mul_lt_mul_right hhi⟩

/-- An even multiple of a spacing has an even significand. -/
theorem even_significand {q : Nat} (e : Nat) (heven : q % 2 = 0) (h1 : q ≤ 2 ^ 24) (h0 : e = 0 ∨ 2 ^ 23 ≤ q) :
    q * 2 ^ e / spacing (q * 2 ^ e) % 2 = 0 := by
  rcases h1.lt_or_eq with hlt | rfl
  · have hs : spacing (q * 2 ^ e) = 2 ^ e := by
      rcases h0 with rfl | h0
      · simpa using spacing_eq_one hlt
      · exact spacing_mul_pow e h0 hlt
    rw [hs, Nat.mul_div_cancel _ (Nat.two_pow_pos e), heven]
  · have hpow : 2 ^ 24 * 2 ^ e = 2 ^ 23 * 2 ^ (e + 1) := by ring
    rw [hpow, spacing_mul_pow _ (le_refl _) (by decide), Nat.mul_div_cancel _ (Nat.two_pow_pos _)]
    rfl

/-- The one of two candidates `p` and `p + w` that is nearer to `p + r` is the nearest of all that do not lie between them. -/
theorem abs_sub_le_of_candidates {p w r b c : Int} (h0 : 0 ≤ r) (h1 : r ≤ w) (hb : b ≤ p ∨ p + w ≤ b)
    (hc : c = p ∧ 2 * r ≤ w ∨ c = p + w ∧ w ≤ 2 * r) :
    |p + r - c| ≤ |p + r - b| ∧ (b ≠ c → |p + r - b| = |p + r - c| → 2 * r = w) := by
  simp only [abs_eq_max_neg]
  omega

/-- Where rounding meets a tie it takes the even significand. -/
theorem roundMag_even_of_tie {n d : Nat} (h : 2 * (n % (d * spacing (n / d))) = d * spacing (n / d)) :
    roundMag n d / spacing (roundMag n d) % 2 = 0 := by
  have hq := quot_lt n d
  have hfull : Nat.log2 (n / d) - 23 = 0 ∨ 2 ^ 23 ≤ n / (d * spacing (n / d)) := by
    by_cases h0 : Nat.log2 (n / d) - 23 = 0
    · exact .inl h0
    · exact .inr (quot_ge (by simp [spacing, h0]))
  rcases roundMag_cases n d with ⟨hr, -, he⟩ | ⟨hr, -, he⟩ <;> rw [hr]
  · exact even_significand _ (he h) hq.le hfull
  · exact even_significand _ (by have := he h; omega) hq (hfull.imp_right Nat.le_succ_of_le)

/-- `roundMag n d` is the magnitude nearest to `n / d`: in units of `1 / d`, no other is nearer, and where another one is as
near, the significand is even. -/
theorem roundMag_nearest {n d B : Nat} (hd : 0 < d) (hB : SigBits B) :
    |(n : Int) - roundMag n d * d| ≤ |(n : Int) - B * d| ∧
    (B ≠ roundMag n d → |(n : Int) - B * d| = |(n : Int) - roundMag n d * d| →
      roundMag n d / spacing (roundMag n d) % 2 = 0) := by
  have htie := roundMag_even_of_tie (n := n) (d := d)
  have hcases := roundMag_cases n d
  have hside := sigBits_le_or_ge hB n d
  have hw := Nat.mul_pos hd (spacing_pos (n / d))
  have hr := Nat.mod_lt n hw
  have hn := Nat.div_add_mod n (d * spacing (n / d))
  generalize spacing (n / d) = u at *
  generalize n / (d * u) = q at *
  generalize n % (d * u) = r at *
  have hlow : ((q * u * d : Nat) : Int) = d * u * q := by push_cast; ring
  have hup : (((q + 1) * u * d : Nat) : Int) = d * u * q + d * u := by push_cast; ring
  have hn' : (n : Int) = d * u * q + r := by exact_mod_cast hn.symm
  have hB' : (B * d : Int) ≤ d * u * q ∨ (d * u * q + d * u : Int) ≤ B * d := by
    rw [← hup, ← hlow]
    refine hside.imp (fun h => ?_) fun h => ?_ <;> exact_mod_cast Nat.mul_le_mul_right d h
  have hR : (roundMag n d * d : Int) = d * u * q ∧ (2 * r : Int) ≤ d * u ∨
      (roundMag n d * d : Int) = d * u * q + d * u ∧ (d * u : Int) ≤ 2 * r := by
    rw [← hup, ← hlow]
    refine hcases.imp (fun ⟨h, h2, _⟩ => ⟨?_, by exact_mod_cast h2⟩) fun ⟨h, h2, _⟩ => ⟨?_, by exact_mod_cast h2⟩ <;>
      rw [h] <;> push_cast <;> ring
  obtain ⟨hle, heq⟩ := abs_sub_le_of_candidates (by omega : (0 : Int) ≤ r) (by exact_mod_cast hr.le) hB' hR
  rw [hn']
  refine ⟨hle, fun hne he => htie ?_⟩
  have hne' : (B * d : Int) ≠ roundMag n d * d := by exact_mod_cast fun h => hne (Nat.eq_of_mul_eq_mul_right hd h)
  exact_mod_cast heq hne' he

/-! ### The nearest number -/

section
variable {n : Int} {d : Nat}

/-- A magnitude with the sign of `n` is as far from `n` as the magnitude is from that of `n`. -/
theorem abs_sub_withSign (n : Int) (m d : Nat) : |n - (withSign n m).units * d| = |(n.natAbs : Int) - m * d| := by
  unfold withSign
  split <;> rename_i hn
  · rw [Int.ofNat_natAbs_of_nonpos (by omega), ← abs_neg]
    ring_nf
  · rw [Int.natAbs_of_nonneg (by omega)]

/-- The magnitudes are at most as far apart as the numbers. -/
theorem abs_natAbs_sub_le (n z : Int) (d : Nat) : |(n.natAbs : Int) - z.natAbs * d| ≤ |n - z * d| := by
  rw [Int.natCast_natAbs, Int.natCast_natAbs, ← Nat.abs_cast d, ← abs_mul, Nat.abs_cast]
  exact abs_abs_sub_abs_le n (z * d)

theorem roundMag_zero (hd : 0 < d) : roundMag 0 d = 0 := by
  simpa using roundMag_self (m := 0) hd (by simp [SigBits])

/-- No number but the one with the sign of `n` has the rounded magnitude and the same distance from `n`. -/
theorem eq_withSign_of_abs_sub_eq (hd : 0 < d) {z : Num32} (hz : z.units.natAbs = roundMag n.natAbs d)
    (he : |n - z.units * d| = |(n.natAbs : Int) - roundMag n.natAbs d * d|) :
    z = withSign n (roundMag n.natAbs d) := by
  obtain ⟨z⟩ := z
  have hzero : n = 0 → roundMag n.natAbs d = 0 := fun h => by rw [h]; exact roundMag_zero hd
  have hprod : 0 < roundMag n.natAbs d → (0 : Int) < roundMag n.natAbs d * d := fun h => by positivity
  generalize roundMag n.natAbs d = m at *
  have hz' : z = m ∧ z * d = m * d ∨ z = -m ∧ z * d = -(m * d) := by
    refine (Int.natAbs_eq z).imp (fun h => ?_) fun h => ?_ <;> rw [h, hz] <;> simp
  simp only [withSign, Num32.mk.injEq, abs_eq_max_neg] at he ⊢
  generalize z * d = zd at *
  generalize (m : Int) * d = md at *
  split <;> omega

/-- The distance of an exact value from a number, in units of `1 / d`. -/
theorem abs_sub_numVal (hd : 0 < d) {v : ℚ} (hv : v * (2 ^ 149 * d) = n) (z : Num32) :
    |v - numVal z| = (|n - z.units * d| : Int) / (2 ^ 149 * d) := by
  have hpos : (0 : ℚ) < 2 ^ 149 * d := by positivity
  rw [eq_div_iff hpos.ne']
  conv_lhs => rw [← abs_of_pos hpos]
  rw [← abs_mul, sub_mul, hv, numVal]
  push_cast
  congr 2
  field_simp

/-- The rounded magnitude with the sign is the nearest number, with ties to even. -/
theorem nearestEven_withSign (hd : 0 < d) {v : ℚ} (hv : v * (2 ^ 149 * d) = n) (hmax : roundMag n.natAbs d ≤ maxMag) :
    nearestEven v (withSign n (roundMag n.natAbs d)) := by
  have hpos : (0 : ℚ) < 2 ^ 149 * d := by positivity
  refine ⟨isBinary32_withSign (sigBits_roundMag _ _) hmax, fun z hz => ?_⟩
  obtain ⟨hle, heven⟩ := roundMag_nearest (n := n.natAbs) hd (isBinary32_sigBits hz)
  have hmag := abs_natAbs_sub_le n z.units d
  rw [abs_sub_numVal hd hv, abs_sub_numVal hd hv, div_le_div_iff_of_pos_right hpos, div_left_inj' hpos.ne', Int.cast_le,
    Int.cast_inj, abs_sub_withSign, withSign_natAbs]
  refine ⟨hle.trans hmag, fun hne he => ?_⟩
  by_cases hzR : z.units.natAbs = roundMag n.natAbs d
  · exact absurd (eq_withSign_of_abs_sub_eq hd hzR he) hne
  · exact heven hzR (le_antisymm (he ▸ hmag) hle)

/-! ### The range -/

/-- Above the greatest number the next magnitude with 24 significant bits is 2^128. -/
theorem sigBits_gt_maxMag {m : Nat} (h : SigBits m) (hm : maxMag < m) : maxMag + 2 ^ 253 ≤ m := by
  have hs : spacing maxMag = 2 ^ 253 := spacing_mul_pow 253 (by decide) (by decide)
  obtain ⟨c, hc⟩ := (spacing_dvd hm.le).trans h
  rw [hs] at hc
  rw [maxMag] at hm ⊢
  omega

/-- Below the overflow bound rounding stays in range. -/
theorem roundMag_le_maxMag {n d : Nat} (hd : 0 < d) (h : n < (maxMag + 2 ^ 252) * d) : roundMag n d ≤ maxMag := by
  by_contra hgt
  have hn : maxMag * d < n := by
    by_contra hle
    exact hgt (roundMag_le hd sigBits_maxMag (not_lt.1 hle))
  have hbig := Nat.mul_le_mul_right d (sigBits_gt_maxMag (sigBits_roundMag n d) (not_le.1 hgt))
  have hnear := (roundMag_nearest (n := n) hd sigBits_maxMag).1
  zify at h hn hbig
  rw [abs_of_nonpos (by linarith), abs_of_nonneg (by linarith)] at hnear
  linarith

theorem overflowBound_units : overflowBound * 2 ^ 149 = maxMag + 2 ^ 252 := by
  norm_num [overflowBound, maxMag]

theorem natAbs_lt_of_lt_overflowBound (hd : 0 < d) {v : ℚ} (hv : v * (2 ^ 149 * d) = n) (hb : |v| < overflowBound) :
    n.natAbs < (maxMag + 2 ^ 252) * d := by
  have hpos : (0 : ℚ) < 2 ^ 149 * d := by positivity
  have h : |v * (2 ^ 149 * d)| < overflowBound * (2 ^ 149 * d) := by
    rw [abs_mul, abs_of_pos hpos]
    exact mul_lt_mul_of_pos_right hb hpos
  rw [hv, ← mul_assoc, overflowBound_units, ← Int.cast_abs, ← Int.natCast_natAbs] at h
  exact_mod_cast h

/-- An operation whose exact result is below the overflow bound gives the nearest number. -/
theorem nearestEven_finishOp (hd : 0 < d) {v : ℚ} (hv : v * (2 ^ 149 * d) = n) (hb : |v| < overflowBound) (c : Nat)
    (op : NumOp) (x y : Num32) : nearestEven v (finishOp c op x y n d) := by
  have hmax := roundMag_le_maxMag hd (natAbs_lt_of_lt_overflowBound hd hv hb)
  rw [finishOp_eq hmax]
  exact nearestEven_withSign hd hv hmax
end

/-- An operation whose exact result is between two numbers of binary32 stays between them. -/
theorem finishOp_between {c : Nat} {op : NumOp} {x y : Num32} {n : Int} {d A B : Nat} (hd : 0 < d) (hA : SigBits A)
    (hB : SigBits B) (hmax : B ≤ maxMag) (hlo : A * d ≤ n) (hhi : n ≤ B * d) :
    (A : Int) ≤ (finishOp c op x y n d).units ∧ (finishOp c op x y n d).units ≤ B := by
  obtain ⟨m, rfl⟩ := Int.eq_ofNat_of_zero_le ((by positivity : (0 : Int) ≤ A * d).trans hlo)
  have hle : roundMag m d ≤ B := roundMag_le hd hB (by exact_mod_cast hhi)
  have hge : A ≤ roundMag m d := le_roundMag hd hA (by exact_mod_cast hlo)
  rw [finishOp_eq (by simpa using hle.trans hmax), withSign, if_neg (by omega)]
  exact ⟨by simpa using hge, by simpa using hle⟩

/-! ### The operations -/

theorem unitsOne_cast : (unitsOne : ℚ) = 2 ^ 149 := by norm_num [unitsOne]

section
variable {x y : Num32} (n : Nat)

theorem nearestEven_add32 (hb : |numVal x + numVal y| < overflowBound) :
    nearestEven (numVal x + numVal y) (add32 n x y) := by
  refine nearestEven_finishOp (by decide) ?_ hb _ _ _ _
  simp only [numVal]
  push_cast
  field_simp

theorem nearestEven_sub32 (hb : |numVal x - numVal y| < overflowBound) :
    nearestEven (numVal x - numVal y) (sub32 n x y) := by
  refine nearestEven_finishOp (by decide) ?_ hb _ _ _ _
  simp only [numVal]
  push_cast
  field_simp

theorem nearestEven_mul32 (hb : |numVal x * numVal y| < overflowBound) :
    nearestEven (numVal x * numVal y) (mul32 n x y) := by
  refine nearestEven_finishOp (by decide) ?_ hb _ _ _ _
  simp only [numVal]
  push_cast
  rw [unitsOne_cast]
  field_simp

theorem nearestEven_div32 (hy : numVal y ≠ 0) (hb : |numVal x / numVal y| < overflowBound) :
    nearestEven (numVal x / numVal y) (div32 n x y) := by
  have hy0 : y.units ≠ 0 := fun h => hy (by simp [numVal, h])
  rw [div32, if_neg hy0]
  refine nearestEven_finishOp (Int.natAbs_pos.2 hy0) ?_ hb _ _ _ _
  have hq : (y.units : ℚ) ≠ 0 := by exact_mod_cast hy0
  have hs : ((y.units.natAbs : Nat) : ℚ) = y.units.sign * y.units := by
    rw [Nat.cast_natAbs, ← Int.sign_mul_self_eq_abs, Int.cast_mul]
  rw [hs]
  simp only [numVal]
  push_cast
  rw [unitsOne_cast]
  field_simp

theorem nearestEven_lit32 {k : Int} {d : Nat} (hd : 0 < d) (hb : |(k : ℚ) / d| < overflowBound) :
    nearestEven ((k : ℚ) / d) (lit32 k d) := by
  have hv : (k : ℚ) / d * (2 ^ 149 * d) = ((k * unitsOne : Int) : ℚ) := by
    push_cast
    rw [unitsOne_cast]
    field_simp
  have habs : (k * unitsOne : Int).natAbs = k.natAbs * unitsOne := Int.natAbs_mul _ _
  have hmax := roundMag_le_maxMag hd (natAbs_lt_of_lt_overflowBound hd hv hb)
  have hsign : lit32 k d = withSign (k * unitsOne) (roundMag (k * unitsOne : Int).natAbs d) := by
    rw [habs] at hmax ⊢
    rw [lit32, Nat.min_eq_left hmax, withSign, withSign, unitsOne_eq]
    congr 1
    split <;> split <;> omega
  rw [hsign]
  exact nearestEven_withSign hd hv hmax

/-- `floor` is exact. -/
theorem numVal_floor32 (x : Num32) : numVal (floor32 x) = (⌊numVal x⌋ : ℚ) := by
  have hfloor : ⌊numVal x⌋ = x.units / (unitsOne : Int) := by
    have h := Rat.floor_intCast_div_natCast x.units unitsOne
    rw [← h, numVal, unitsOne_cast]
  rw [hfloor, numVal_eq_iff_mul, floor32, Int.cast_mul, Int.cast_natCast, unitsOne_cast]

/-- A whole number of 24 bits is a binary32 number. -/
theorem isBinary32_whole {k : Int} (h : k.natAbs ≤ 2 ^ 24) : isBinary32 ⟨k * unitsOne⟩ = true := by
  have habs : (k * unitsOne : Int).natAbs = k.natAbs * 2 ^ 149 := Int.natAbs_mul _ _
  rw [isBinary32_iff, habs]
  exact ⟨sigBits_mul_pow _ h, (Nat.mul_le_mul_right _ h).trans (by decide)⟩

/-- The integer part of a number: the number itself where its spacing is at least 1, else a whole number of 24 bits. -/
theorem isBinary32_floor32 (hx : isBinary32 x = true) : isBinary32 (floor32 x) = true := by
  rcases Nat.le_total 149 (Nat.log2 x.units.natAbs - 23) with h | h
  · have hdvd : (unitsOne : Int) ∣ x.units :=
      Int.natCast_dvd.2 ((Nat.pow_dvd_pow 2 h).trans (isBinary32_sigBits hx))
    rw [floor32, Int.ediv_mul_cancel hdvd]
    exact hx
  · have hlt : x.units.natAbs < 2 ^ 173 :=
      Nat.lt_of_lt_of_le Nat.lt_log2_self (Nat.pow_le_pow_right (by decide) (by omega))
    refine isBinary32_whole ?_
    rw [unitsOne_eq]
    omega
end

/-- Settles O45: each operation rounds its exact quotient, and rounding takes the nearest magnitude. -/
theorem operationsRoundToNearestEven : Obligations.OperationsRoundToNearestEven :=
  ⟨fun n _ _ hx _ => ⟨nearestEven_add32 n, nearestEven_sub32 n, nearestEven_mul32 n, nearestEven_div32 n,
    numVal_floor32 _, isBinary32_floor32 hx⟩, fun _ _ _ => nearestEven_lit32⟩

end Sys2Proof.Machine
end

section
/-! PROOFS. The argument of TANPI (R193, U14) -/

namespace Sys2Proof.Machine

section
variable (n : Nat) (x y lo hi : Num32)

theorem units_numMin : (numMin (binary32 n) x y).units = min x.units y.units := by
  simp only [numMin, binary32_le, decide_eq_true_eq, min_def]
  split <;> rfl

theorem units_numMax : (numMax (binary32 n) x y).units = max x.units y.units := by
  simp only [numMax, binary32_le, decide_eq_true_eq, max_def]
  split <;> rfl

theorem units_numClamp : (numClamp (binary32 n) x lo hi).units = min (max x.units lo.units) hi.units := by
  rw [numClamp, units_numMin, units_numMax]

end

/-- Between 7/16 and 15/32 of a number lies a number. -/
theorem exists_sigBits_between {m : Nat} (h : SigBits m) (hm : 2 ^ 23 ≤ m) :
    ∃ B, SigBits B ∧ 7 * m ≤ 16 * B ∧ 32 * B ≤ 15 * m := by
  obtain ⟨c, e, rfl, hc0, hc1⟩ := sigBits_normal h hm
  refine ⟨(7 * c / 16 + 1) * 2 ^ e, sigBits_mul_pow e (by omega), ?_, ?_⟩ <;> rw [← Nat.mul_assoc, ← Nat.mul_assoc] <;>
    exact Nat.mul_le_mul_right _ (by omega)

/-- The largest cutoff, 7/16 of the sample rate, is after rounding at least 1/4 and at most 15/32 of the sample rate. -/
theorem fcFrac_bounds (n : Nat) {fs : Num32} (hfs : isBinary32 fs = true) (h1 : 2 ^ 149 ≤ fs.units) :
    2 ^ 147 ≤ (mul32 n ⟨7 * 2 ^ 145⟩ fs).units ∧ 32 * (mul32 n ⟨7 * 2 ^ 145⟩ fs).units ≤ 15 * fs.units := by
  have hmax := isBinary32_le_maxMag hfs
  obtain ⟨B, hB, hge, hle⟩ := exists_sigBits_between (isBinary32_sigBits hfs) (by omega)
  have hA : SigBits (2 ^ 147) := by simpa using sigBits_mul_pow (q := 1) 147 (by norm_num)
  have hbounds : ((2 ^ 147 : Nat) : Int) ≤ (mul32 n ⟨7 * 2 ^ 145⟩ fs).units ∧ (mul32 n ⟨7 * 2 ^ 145⟩ fs).units ≤ B := by
    refine finishOp_between (by decide) hA hB (by omega) ?_ ?_ <;> simp only [unitsOne_eq]
    · push_cast
      omega
    · omega
  omega

/-- The cutoff is at least 1/4 Hz and at most 15/32 of the sample rate, whatever the registers and operands hold. -/
theorem fltCutoff_bounds (n : Nat) {r : Regs Num32} (h : isBinary32 r.par.fs = true) (tf : Bool) (e lfo : Num32) :
    2 ^ 147 ≤ (fltCutoff (binary32 n) r tf e lfo).units ∧
      32 * (fltCutoff (binary32 n) r tf e lfo).units ≤ 15 * (fsEff (binary32 n) r).units := by
  have hmin : (lit32 20 1).units = 20 * 2 ^ 149 := by decide +kernel
  have hmax : (lit32 20000 1).units = 20000 * 2 ^ 149 := by decide +kernel
  have hfrac : lit32 7 16 = ⟨7 * 2 ^ 145⟩ := by decide +kernel
  obtain ⟨hlo, hhi⟩ := fcFrac_bounds n (isBinary32_fsEff n h) (fsEff_ge_one n r)
  simp only [fltCutoff, units_numClamp, units_numMin, binary32_constants, binary32_mul, defaultConstants, hmin, hmax, hfrac]
  omega

/-- Settles O55: the rounded quotient of a cutoff of at most 15/32 of the sample rate stays below 1/2. -/
theorem filterTangentStaysInItsDomain : Obligations.FilterTangentStaysInItsDomain := by
  intro n r tf e lfo hwf
  have hfs : isBinary32 r.par.fs = true := ((regsWf_iff r).1 hwf).par .fs
  have hone := fsEff_ge_one n r
  have hmax := isBinary32_le_maxMag (isBinary32_fsEff n hfs)
  obtain ⟨hlo, hhi⟩ := fltCutoff_bounds n hfs tf e lfo
  simp only [numVal_pos, numVal_lt_half, binary32_div]
  generalize fsEff (binary32 n) r = fs at *
  generalize fltCutoff (binary32 n) r tf e lfo = fc at *
  rw [div32, if_neg (by omega), Int.sign_eq_one_of_pos (by omega), unitsOne_eq]
  have hA : SigBits 1 := by simpa using sigBits_mul_pow (q := 1) 0 (by norm_num)
  have hB : SigBits (15 * 2 ^ 144) := sigBits_mul_pow 144 (by norm_num)
  rw [maxMag] at hmax
  have hbounds := finishOp_between (c := n) (op := .div) (x := fc) (y := fs) (n := fc.units * 2 ^ 149 * 1)
    (d := fs.units.natAbs) (by omega) hA hB (by decide) (by omega) (by omega)
  omega

end Sys2Proof.Machine
end

section
/-! PROOFS. The bus encoding (R11, R23, R62) -/

namespace Sys2Proof.Machine

/-! ### A magnitude and its exponent and fraction -/

/-- The magnitude of an exponent field and a fraction field, in units. -/
def fieldsMag (e f : Nat) : Nat := if e = 0 then f else (2 ^ 23 + f) * 2 ^ (e - 1)

/-- The word of a magnitude holds its exponent and its fraction. -/
theorem magWord_fieldsMag {e f : Nat} (hf : f < 2 ^ 23) : magWord (fieldsMag e f) = e * 2 ^ 23 + f := by
  unfold fieldsMag magWord
  rcases Nat.eq_zero_or_pos e with rfl | he
  · rw [if_pos rfl, if_pos hf, Nat.zero_mul, Nat.zero_add]
  · have hge : 2 ^ 23 ≤ (2 ^ 23 + f) * 2 ^ (e - 1) :=
      (Nat.le_add_right _ f).trans (Nat.le_mul_of_pos_right _ (Nat.two_pow_pos _))
    have hs : spacing ((2 ^ 23 + f) * 2 ^ (e - 1)) = 2 ^ (e - 1) := spacing_mul_pow _ (by omega) (by omega)
    have hlog : Nat.log2 ((2 ^ 23 + f) * 2 ^ (e - 1)) - 23 = e - 1 := Nat.pow_right_injective (le_refl 2) hs
    have hlog0 : 23 ≤ Nat.log2 ((2 ^ 23 + f) * 2 ^ (e - 1)) := (Nat.log2_two_pow (n := 23)).ge.trans (log2_mono hge)
    rw [if_neg he.ne', if_neg (by omega), hs, Nat.mul_div_cancel _ (Nat.two_pow_pos _)]
    have hexp : Nat.log2 ((2 ^ 23 + f) * 2 ^ (e - 1)) - 22 = e := by omega
    rw [hexp, Nat.add_sub_cancel_left]

/-- Every magnitude of binary32 has an exponent below 255 and a fraction. -/
theorem exists_fields {m : Nat} (h : SigBits m) (hmax : m ≤ maxMag) :
    ∃ e f, e < 255 ∧ f < 2 ^ 23 ∧ m = fieldsMag e f := by
  rcases Nat.lt_or_ge m (2 ^ 23) with hm | hm
  · exact ⟨0, m, by decide, hm, rfl⟩
  · obtain ⟨c, e, rfl, hc0, hc1⟩ := sigBits_normal h hm
    have he : e ≤ 253 := by
      by_contra hgt
      have hpow : 2 ^ 254 ≤ 2 ^ e := Nat.pow_le_pow_right (by decide) (by omega)
      have := Nat.mul_le_mul hc0 hpow
      rw [maxMag] at hmax
      omega
    refine ⟨e + 1, c - 2 ^ 23, by omega, by omega, ?_⟩
    rw [fieldsMag, if_neg (by omega), Nat.add_sub_cancel' hc0, Nat.add_sub_cancel]

/-! ### A word and its fields -/

/-- The sign bit in its place. -/
def signBits (neg : Bool) : Nat := if neg then 2 ^ 31 else 0

theorem expField_eq (w : Word) : expField w = w.toNat / 2 ^ 23 % 2 ^ 8 := by
  simp [expField, Nat.shiftRight_eq_div_pow]

theorem fracField_eq (w : Word) : fracField w = w.toNat % 2 ^ 23 := by
  simp [fracField]

theorem getLsbD_31_eq (w : Word) : w.getLsbD 31 = decide (2 ^ 31 ≤ w.toNat) :=
  (BitVec.msb_eq_getLsbD_last w).symm.trans (BitVec.msb_eq_decide w)

/-- A word is made of its three fields (R62). -/
theorem toNat_eq_fields (w : Word) :
    w.toNat = signBits (w.getLsbD 31) + expField w * 2 ^ 23 + fracField w := by
  have hw := w.isLt
  rw [getLsbD_31_eq, expField_eq, fracField_eq, signBits]
  simp only [decide_eq_true_eq]
  split <;> omega

/-- The fields of a word made of three fields. -/
theorem fields_of_toNat {w : Word} {neg : Bool} {e f : Nat} (he : e < 2 ^ 8) (hf : f < 2 ^ 23)
    (h : w.toNat = signBits neg + e * 2 ^ 23 + f) : w.getLsbD 31 = neg ∧ expField w = e ∧ fracField w = f := by
  rw [getLsbD_31_eq, expField_eq, fracField_eq]
  cases neg with
  | false =>
    have hs : signBits false = 0 := rfl
    exact ⟨decide_eq_false (by omega), by omega, by omega⟩
  | true =>
    have hs : signBits true = 2 ^ 31 := rfl
    exact ⟨decide_eq_true (by omega), by omega, by omega⟩

theorem numOfWord_eq_none (w : Word) : numOfWord w = none ↔ w.extractLsb' 23 8 = 0xFF := by
  have hexp : expField w = 255 ↔ w.extractLsb' 23 8 = 0xFF := by
    rw [expField, ← BitVec.toNat_inj]
    rfl
  rw [← hexp]
  simp [numOfWord, isFiniteWord]

/-- The number of a finite word, from its fields. -/
theorem numOfWord_of_fields {w : Word} (h : expField w ≠ 255) :
    numOfWord w = some ⟨if w.getLsbD 31 then -(fieldsMag (expField w) (fracField w) : Int)
      else fieldsMag (expField w) (fracField w)⟩ :=
  if_pos ((isFiniteWord_iff w).2 h)

theorem toNat_wordOfNum {x : Num32} (h : magWord x.units.natAbs < 2 ^ 31) :
    (wordOfNum x).toNat = signBits (decide (x.units < 0)) + magWord x.units.natAbs := by
  have hlt : signBits (decide (x.units < 0)) ≤ 2 ^ 31 := by unfold signBits; split <;> omega
  have hdef : wordOfNum x = BitVec.ofNat 32 (signBits (decide (x.units < 0)) + magWord x.units.natAbs) := by
    simp [wordOfNum, signBits]
  rw [hdef, BitVec.toNat_ofNat, Nat.mod_eq_of_lt (by omega)]

/-- The word of a number denotes it. -/
theorem numOfWord_wordOfNum {x : Num32} (hx : isBinary32 x = true) : numOfWord (wordOfNum x) = some x := by
  obtain ⟨e, f, he, hf, hm⟩ := exists_fields (isBinary32_sigBits hx) (isBinary32_le_maxMag hx)
  have hmag : magWord x.units.natAbs = e * 2 ^ 23 + f := by rw [hm, magWord_fieldsMag hf]
  have hnat := toNat_wordOfNum (x := x) (by omega)
  rw [hmag, ← Nat.add_assoc] at hnat
  obtain ⟨hs, hexp, hfrac⟩ := fields_of_toNat (by omega) hf hnat
  obtain ⟨u⟩ := x
  rw [numOfWord_of_fields (by omega), hs, hexp, hfrac, ← hm]
  simp only [decide_eq_true_eq, Option.some.injEq, Num32.mk.injEq]
  split <;> omega

theorem magWord_wordMag (w : Word) : magWord (wordMag w) = expField w * 2 ^ 23 + fracField w :=
  magWord_fieldsMag (fracField_lt w)

/-- A word with its sign bit set denotes 0 only if it is 0x80000000. -/
theorem eq_negZero_of_wordMag {w : Word} (hneg : w.getLsbD 31 = true) (h : wordMag w = 0) : w = 0x80000000 := by
  have hfields := magWord_wordMag w
  have hzero : magWord 0 = 0 := rfl
  have hs : signBits true = 2 ^ 31 := rfl
  rw [h, hzero] at hfields
  refine BitVec.eq_of_toNat_eq (?_ : w.toNat = 2 ^ 31)
  rw [toNat_eq_fields w, hneg]
  omega

/-- The word of the number of a word is that word, but for the word of the negative zero. -/
theorem wordOfNum_numOfWord {w : Word} {x : Num32} (h : numOfWord w = some x) (hw : w ≠ 0x80000000) : wordOfNum x = w := by
  obtain ⟨hfin, hx⟩ := numOfWord_eq_some h
  have hf := fracField_lt w
  have he := expField_lt w
  have habs : x.units.natAbs = wordMag w := by
    rw [hx]
    split <;> simp
  have hmag : magWord x.units.natAbs = expField w * 2 ^ 23 + fracField w := by rw [habs, magWord_wordMag]
  have hsign : decide (x.units < 0) = w.getLsbD 31 := by
    cases hneg : w.getLsbD 31 with
    | false => simp only [hx, hneg, Bool.false_eq_true, if_false, decide_eq_false_iff_not, not_lt, Int.natCast_nonneg]
    | true =>
      have hpos : wordMag w ≠ 0 := fun h0 => hw (eq_negZero_of_wordMag hneg h0)
      simp only [hx, hneg, if_true, decide_eq_true_eq]
      omega
  apply BitVec.eq_of_toNat_eq
  rw [toNat_wordOfNum (by omega), hmag, hsign, toNat_eq_fields w, Nat.add_assoc]

/-- The value of a normal word (R62). -/
theorem numVal_of_normal {w : Word} {x : Num32} (he : expField w ≠ 0) (h : numOfWord w = some x) :
    numVal x = (if w.getLsbD 31 then -1 else 1) * (1 + (fracField w : ℚ) / 2 ^ 23) * 2 ^ ((expField w : ℤ) - 127) := by
  obtain ⟨-, rfl⟩ := numOfWord_eq_some h
  have hpow : (2 : ℚ) ^ ((expField w : ℤ) - 127) = 2 ^ (expField w - 1) / 2 ^ 126 := by
    rw [← zpow_natCast, ← zpow_natCast, ← zpow_sub₀ two_ne_zero, Nat.cast_sub (by omega)]
    congr 1
    omega
  rw [hpow, numVal, wordMag, if_neg he]
  split <;> push_cast <;> field_simp <;> ring

/-- Settles O46: a finite word and a magnitude of 24 bits are made of the same exponent and fraction. -/
theorem busWordsAndNumbersCorrespond : Obligations.BusWordsAndNumbersCorrespond :=
  ⟨numOfWord_eq_none, fun _ _ h => ⟨isBinary32_of_numOfWord h, wordOfNum_numOfWord h⟩, fun _ => numOfWord_wordOfNum,
    by decide +kernel, by decide +kernel, fun _ _ _ => numVal_of_normal⟩

end Sys2Proof.Machine
end

section
/-! PROOFS. The named properties of the binary32 functions (R12 to R16) -/

namespace Sys2Proof.Machine

/-! ### SIN2PI (R12) -/

theorem sin2pi32_points : sin2pi32 (lit32 0 1) = lit32 0 1 ∧ sin2pi32 (lit32 1 4) = lit32 1 1 ∧
    sin2pi32 (lit32 1 2) = lit32 0 1 ∧ sin2pi32 (lit32 3 4) = lit32 (-1) 1 := by decide +kernel

theorem sin2pi32_bounds (p : Num32) : -2 ^ 149 ≤ (sin2pi32 p).units ∧ (sin2pi32 p).units ≤ 2 ^ 149 := by
  unfold sin2pi32
  split_ifs <;> dsimp only <;> omega

theorem sin2pi32_nonneg {p : Num32} (h : p.units ≤ 2 ^ 148) : 0 ≤ (sin2pi32 p).units := by
  unfold sin2pi32
  split_ifs <;> dsimp only <;> omega

theorem sin2pi32_nonpos {p : Num32} (h : 2 ^ 148 ≤ p.units) : (sin2pi32 p).units ≤ 0 := by
  unfold sin2pi32
  split_ifs <;> dsimp only <;> omega

/-! ### TANH (R13) -/

theorem tanhMag_mono {a b : Nat} (h : a ≤ b) : tanhMag a ≤ tanhMag b := by
  unfold tanhMag
  split_ifs with ha hb
  · exact le_refl _
  · exact Nat.zero_le _
  · omega
  · exact roundMag_mono (by decide) (by decide) (Nat.mul_le_mul_right 1 (min_le_min_right _ (Config.tanhFree.monotone h)))

theorem tanhMag_le (m : Nat) : tanhMag m ≤ unitsOne := by
  unfold tanhMag
  split
  · exact Nat.zero_le _
  · exact roundMag_le (by decide) sigBits_unitsOne (by omega)

theorem units_tanh32 (x : Num32) :
    (tanh32 x).units = if x.units < 0 then -(tanhMag x.units.natAbs : Int) else tanhMag x.units.natAbs := by
  unfold tanh32 withSign
  rfl

theorem tanh32_zero : tanh32 ⟨0⟩ = ⟨0⟩ := rfl

theorem tanh32_neg (x : Num32) : (tanh32 ⟨-x.units⟩).units = -(tanh32 x).units := by
  have h0 : x.units = 0 → tanhMag x.units.natAbs = 0 := fun h => by rw [h]; rfl
  rw [units_tanh32, units_tanh32, Int.natAbs_neg]
  split_ifs <;> dsimp only at * <;> omega

theorem tanh32_mono {x y : Num32} (h : x.units ≤ y.units) : (tanh32 x).units ≤ (tanh32 y).units := by
  rw [units_tanh32, units_tanh32]
  split_ifs with hx hy hy
  · have := tanhMag_mono (by omega : y.units.natAbs ≤ x.units.natAbs)
    omega
  · omega
  · omega
  · have := tanhMag_mono (by omega : x.units.natAbs ≤ y.units.natAbs)
    omega

theorem tanh32_bounds (x : Num32) : -2 ^ 149 ≤ (tanh32 x).units ∧ (tanh32 x).units ≤ 2 ^ 149 := by
  have h := tanhMag_le x.units.natAbs
  have h1 := unitsOne_eq
  rw [units_tanh32]
  split <;> omega

/-! ### EXP2 (R14) -/

theorem toBinary32_mono {a b : Nat} (h : a ≤ b) : (toBinary32 a).units ≤ (toBinary32 b).units := by
  have hr : roundMag (min a maxMag) 1 ≤ roundMag (min b maxMag) 1 :=
    roundMag_mono (by decide) (by decide) (Nat.mul_le_mul_right 1 (min_le_min_right _ h))
  simp only [toBinary32, withSign, Int.natAbs_natCast, if_neg (not_lt.2 (Int.natCast_nonneg _))]
  exact_mod_cast hr

/-- The free value of EXP2. -/
def exp2Value (x : Num32) : Int := (toBinary32 (Config.exp2Free (exp2Index x))).units

theorem exp2Value_mono {x y : Num32} (h : x.units ≤ y.units) : exp2Value x ≤ exp2Value y :=
  toBinary32_mono (Config.exp2Free.monotone (Int.toNat_le_toNat (by omega)))

theorem pow2Units_pos (k : Int) : 0 < pow2Units k := by unfold pow2Units; positivity

theorem pow2Units_mono {j k : Int} (h : j ≤ k) : pow2Units j ≤ pow2Units k :=
  pow_le_pow_right₀ (by decide) (Int.toNat_le_toNat (by omega))

theorem numVal_pow2Units {k : Int} (h : -149 ≤ k) : numVal ⟨pow2Units k⟩ = (2 : ℚ) ^ k := by
  have hexp : ((149 + k).toNat : Int) = 149 + k := Int.toNat_of_nonneg (by omega)
  rw [numVal_eq_iff_mul, pow2Units, Int.cast_pow, Int.cast_ofNat, ← zpow_natCast, hexp, zpow_add₀ two_ne_zero, mul_comm]
  rfl

/-- The whole part of a number. -/
def wholePart (x : Num32) : Int := x.units / (unitsOne : Int)

section
variable {x : Num32}

theorem exp2_32_low (h : wholePart x < -16) : (exp2_32 x).units = max 1 (min (exp2Value x) (pow2Units (-16))) := by
  rw [wholePart] at h
  simp only [exp2_32, if_pos h, exp2Value]

theorem exp2_32_high (h : 16 ≤ wholePart x) (hx : x.units ≠ 16 * unitsOne) :
    (exp2_32 x).units = max (exp2Value x) (pow2Units 16) := by
  rw [wholePart] at h
  simp only [exp2_32, if_neg (by omega : ¬x.units / (unitsOne : Int) < -16), if_neg hx, if_pos h, exp2Value]

theorem exp2_32_between (h0 : -16 ≤ wholePart x) (h1 : wholePart x < 16) (hx : x.units ≠ wholePart x * unitsOne) :
    (exp2_32 x).units = max (pow2Units (wholePart x)) (min (exp2Value x) (pow2Units (wholePart x + 1))) := by
  have hne : x.units ≠ 16 * unitsOne := by
    rw [wholePart, unitsOne_eq] at h1
    rw [unitsOne_eq]
    omega
  rw [wholePart] at *
  simp only [exp2_32, if_neg (not_lt.2 h0), if_neg hne, if_neg (not_le.2 h1), if_neg hx, exp2Value]

theorem wholePart_mul_le (x : Num32) : wholePart x * unitsOne ≤ x.units := Int.ediv_mul_le _ (by decide)

theorem wholePart_of_whole {k : Int} (hx : x.units = k * unitsOne) : wholePart x = k := by
  rw [wholePart, hx, Int.mul_ediv_cancel _ (by decide)]

/-- EXP2 is exact at the whole numbers of its range. -/
theorem exp2_32_whole {k : Int} (h0 : -16 ≤ k) (h1 : k ≤ 16) (hx : x.units = k * unitsOne) :
    (exp2_32 x).units = pow2Units k := by
  have hk : x.units / (unitsOne : Int) = k := wholePart_of_whole hx
  simp only [exp2_32, hk, if_neg (not_lt.2 h0), ← hx, if_true]
  split_ifs with h16 h17
  · obtain rfl : k = 16 := by rw [← hk, h16]; rfl
    rfl
  · obtain rfl : k = 16 := by omega
    exact absurd hx h16
  · rfl

theorem exp2_32_le {j : Int} (h0 : -16 ≤ j) (h1 : j ≤ 16) (h : wholePart x < j) : (exp2_32 x).units ≤ pow2Units j := by
  have hlow := pow2Units_mono h0
  have hpos := pow2Units_pos (-16)
  rcases lt_or_ge (wholePart x) (-16) with hk | hk
  · rw [exp2_32_low hk]
    omega
  · by_cases hx : x.units = wholePart x * unitsOne
    · rw [exp2_32_whole hk (by omega) hx]
      exact pow2Units_mono h.le
    · rw [exp2_32_between hk (by omega) hx]
      exact max_le (pow2Units_mono h.le) (min_le_of_right_le (pow2Units_mono h))

theorem le_exp2_32 {j : Int} (h0 : -16 ≤ j) (h1 : j ≤ 16) (h : j ≤ wholePart x) : pow2Units j ≤ (exp2_32 x).units := by
  rcases lt_or_ge (wholePart x) 16 with hk | hk
  · by_cases hx : x.units = wholePart x * unitsOne
    · rw [exp2_32_whole (by omega) hk.le hx]
      exact pow2Units_mono h
    · rw [exp2_32_between (by omega) hk hx]
      exact le_max_of_le_left (pow2Units_mono h)
  · by_cases hx : x.units = 16 * unitsOne
    · rw [exp2_32_whole (by decide) (le_refl _) hx]
      exact pow2Units_mono h1
    · rw [exp2_32_high hk hx]
      exact le_max_of_le_right (pow2Units_mono h1)

theorem exp2_32_pos (x : Num32) : 0 < (exp2_32 x).units := by
  rcases lt_or_ge (wholePart x) (-16) with hk | hk
  · rw [exp2_32_low hk]
    omega
  · exact (pow2Units_pos (-16)).trans_le (le_exp2_32 (le_refl _) (by decide) hk)

theorem exp2_32_mono {y : Num32} (h : x.units ≤ y.units) : (exp2_32 x).units ≤ (exp2_32 y).units := by
  have hv := exp2Value_mono h
  have hk : wholePart x ≤ wholePart y := Int.ediv_le_ediv (by decide) h
  rcases lt_or_ge (wholePart y) (-16) with hy | hy
  · rw [exp2_32_low hy, exp2_32_low (hk.trans_lt hy)]
    omega
  rcases lt_or_ge (wholePart x) 16 with hx | hx
  · rcases hk.lt_or_eq with hlt | heq
    · -- a power of two at a whole number separates the two values
      have hle := exp2_32_le (x := x) (j := min 16 (wholePart y)) (by omega) (by omega) (by omega)
      exact hle.trans (le_exp2_32 (by omega) (by omega) (by omega))
    · by_cases hxe : x.units = wholePart x * unitsOne
      · rw [exp2_32_whole (by omega) hx.le hxe]
        exact le_exp2_32 (by omega) hx.le hk
      · have hye : y.units ≠ wholePart y * unitsOne := fun hye => by
          rw [← heq] at hye
          exact hxe ((h.trans hye.le).antisymm (wholePart_mul_le x))
        rw [exp2_32_between (by omega) hx hxe, exp2_32_between hy (by omega) hye, heq]
        omega
  · by_cases hxe : x.units = 16 * unitsOne
    · rw [exp2_32_whole (by decide) (le_refl _) hxe]
      exact le_exp2_32 (by decide) (le_refl _) (hx.trans hk)
    · have hye : y.units ≠ 16 * unitsOne := fun hye =>
        hxe ((h.trans hye.le).antisymm (le_trans (Int.mul_le_mul_of_nonneg_right hx (by decide)) (wholePart_mul_le x)))
      rw [exp2_32_high hx hxe, exp2_32_high (hx.trans hk) hye]
      omega
end

theorem lit32_whole {k : Int} (h : k.natAbs ≤ 2 ^ 24) : lit32 k 1 = ⟨k * unitsOne⟩ := by
  have habs : (k * unitsOne : Int).natAbs = k.natAbs * unitsOne := Int.natAbs_mul _ _
  have hwf := (isBinary32_iff _).1 (isBinary32_whole h)
  rw [habs] at hwf
  have hr : roundMag (k.natAbs * unitsOne) 1 = k.natAbs * unitsOne := by
    simpa using roundMag_self (d := 1) (by decide) hwf.1
  rw [lit32, hr, Nat.min_eq_left hwf.2, withSign, Nat.cast_mul]
  congr 1
  split
  · rw [Int.ofNat_natAbs_of_nonpos (by omega)]
    ring
  · rw [Int.natAbs_of_nonneg (by omega)]

theorem numVal_exp2_whole {k : Int} (h0 : -16 ≤ k) (h1 : k ≤ 16) : numVal (exp2_32 (lit32 k 1)) = (2 : ℚ) ^ k := by
  rw [lit32_whole (by omega), ← numVal_pow2Units (by omega), ← exp2_32_whole h0 h1 rfl]

/-! ### TANPI (R15) -/

/-- The free value of TANPI. -/
def tanpiValue (r : Num32) : Int := (toBinary32 (Config.tanpiFree r.units.toNat)).units

theorem tanpiValue_mono {x y : Num32} (h : x.units ≤ y.units) : tanpiValue x ≤ tanpiValue y :=
  toBinary32_mono (Config.tanpiFree.monotone (Int.toNat_le_toNat h))

theorem units_tanpi32 (r : Num32) : (tanpi32 r).units =
    if r.units = 2 ^ 147 then 2 ^ 149
    else if r.units < 2 ^ 147 then max 1 (min (tanpiValue r) (2 ^ 149)) else max (tanpiValue r) (2 ^ 149) := by
  unfold tanpi32 tanpiValue
  split_ifs <;> rfl

theorem tanpi32_pos (x : Num32) : 0 < (tanpi32 x).units := by
  rw [units_tanpi32]
  split_ifs <;> omega

theorem tanpi32_mono {x y : Num32} (h : x.units ≤ y.units) : (tanpi32 x).units ≤ (tanpi32 y).units := by
  have hv := tanpiValue_mono h
  rw [units_tanpi32, units_tanpi32]
  split_ifs <;> omega

/-! ### TWO_PI (R16) -/

theorem twoPi32_bounds (n : Nat) : 6.2831 < numVal (binary32 n).twoPi ∧ numVal (binary32 n).twoPi < 6.2832 := by
  norm_num [numVal, binary32]

/-- Settles O47: each function is forced into its properties by its fixed points and clamps, whatever the free values are. -/
theorem binary32FunctionsHaveTheirNamedProperties : Obligations.Binary32FunctionsHaveTheirNamedProperties := by
  intro n
  refine ⟨sin2pi32_points, fun p _ _ => ⟨abs_numVal_le_one.2 (sin2pi32_bounds p),
      fun h => numVal_nonneg.2 (sin2pi32_nonneg (numVal_le_half.1 h)),
      fun h => numVal_nonpos.2 (sin2pi32_nonpos (half_le_numVal.1 h))⟩,
    tanh32_zero, fun x => ?_, fun x y h => numVal_le_numVal.2 (tanh32_mono (numVal_le_numVal.1 h)),
    fun x => abs_numVal_le_one.2 (tanh32_bounds x), fun k => numVal_exp2_whole, fun x => numVal_pos.2 (exp2_32_pos x),
    fun x y _ _ h => numVal_le_numVal.2 (exp2_32_mono (numVal_le_numVal.1 h)), ?_,
    fun x _ _ => numVal_pos.2 (tanpi32_pos x),
    fun x y _ h _ => numVal_le_numVal.2 (tanpi32_mono (numVal_le_numVal.1 h)), twoPi32_bounds n⟩
  · exact (congrArg (fun u : Int => numVal ⟨u⟩) (tanh32_neg x)).trans (numVal_neg _)
  · exact (by decide +kernel : tanpi32 (lit32 1 4) = lit32 1 1)

end Sys2Proof.Machine
end

section
/-! PROOFS. The register map, the reset values, and reading a register after a write (R23 to R26, R33). -/

namespace Sys2Proof.Machine

/-- An address names a register exactly when the register has it. -/
theorem regAt?_eq_some (a : Nat) (x : RegName) : regAt? a = some x ↔ regAddr x = a :=
  ⟨regAddr_of_regAt?, fun h => h ▸ regAt?_regAddr x⟩

/-- The implemented addresses of the lower half are those of the parameter registers, in the order of R24. -/
theorem implemented_low :
    (List.range' 0x00 0x80).filterMap (fun a => (regAt? a).map (a, ·)) =
      allParams.map fun p => (paramAddr p, .param p) := by decide +kernel

/-- Those of the upper half are those of the state registers, in the order of R25. -/
theorem implemented_high :
    (List.range' 0x80 0x80).filterMap (fun a => (regAt? a).map (a, ·)) =
      allStates.map fun q => (stateAddr q, .state q) := by decide +kernel

/-- What the implemented addresses of a list hold, from the registers they name. -/
theorem filterMap_held {α : Type} (r : Regs α) (l : List Nat) :
    l.filterMap (fun a => (regAt? a).map fun x => (a, readReg r x)) =
      (l.filterMap fun a => (regAt? a).map (a, ·)).map fun y => (y.1, readReg r y.2) := by
  simp [List.map_filterMap, Function.comp_def]

/-- Settles O9: the two lists of implemented addresses are evaluated, and each register is read by definition. -/
theorem registerMapIsOneToOne : Obligations.RegisterMapIsOneToOne := by
  refine ⟨regAt?_eq_some, paramAddr_lt, fun q => ⟨(stateAddr_ge q).1, Nat.le_of_lt_succ (stateAddr_ge q).2⟩,
    by decide +kernel, fun α r => ⟨?_, ?_⟩⟩
  · rw [filterMap_held, implemented_low]
    rfl
  · rw [filterMap_held, implemented_high]
    rfl

/-- A word narrowed to `k` bits and extended again keeps its low `k` bits. -/
theorem setWidth_setWidth_eq_mod (w : Word) (k : Nat) : (w.setWidth k).setWidth 32 = BitVec.ofNat 32 (w.toNat % 2 ^ k) :=
  BitVec.eq_of_toNat_eq (by simp)

theorem readParam_writeInt_same {α : Type} (r : Regs α) (p : ParamReg) (w : Word) (h : paramIsNum p = false) :
    readParam (writeInt r p w) p = .int (BitVec.ofNat 32 (w.toNat % 2 ^ paramBits p)) := by
  rw [← setWidth_setWidth_eq_mod]
  cases p <;> first | rfl | cases h

/-- Settles O12, register by register: the written one by its type, a parameter of another name, and a state register. -/
theorem writtenParameterReadsBack : Obligations.WrittenParameterReadsBack := by
  intro r p v w
  refine ⟨readParam_writeNum_same r p v, readParam_writeInt_same r p w, fun x hx => ?_⟩
  cases x with
  | param q =>
    have hq : q ≠ p := fun e => hx (congrArg RegName.param e)
    exact ⟨readParam_writeNum_other r p v hq, readParam_writeInt_other r p w hq⟩
  | state q => exact ⟨readState_writeNum r p v q, readState_writeInt r p w q⟩

/-- Settles O1, by evaluation of the registers one by one. -/
theorem resetGivesEveryRegisterItsResetValue : Obligations.ResetGivesEveryRegisterItsResetValue := by
  have hwords : ∀ x ∈ allRegs, wordOfVal (readReg State.reset.regs x) =
      if x = .param .fs then 0x473B8000 else if x = .state .noiseRng then 0x00000001 else 0 := by decide +kernel
  have hfs : State.reset.regs.par.fs = ⟨48000 * 2 ^ 149⟩ := by decide +kernel
  refine ⟨fun x => hwords x (mem_allRegs x), ?_, regsWf_reset⟩
  rw [hfs, numVal_eq_iff_mul]
  norm_num

end Sys2Proof.Machine
end

section
/-! PROOFS. What each command leaves unchanged (R24, R25, R31), on values and on the machine. -/

namespace Sys2Proof.Machine

/-! ### The frame of each command on values -/

section
variable {α : Type} (C : Config α) (o : Operands α) (r : Regs α)

/-- WRR at the address of a parameter register writes it by its type. -/
theorem wrrRegs_param {addr : Nat} {p : ParamReg} (h : regAt? addr = some (.param p)) :
    (wrrRegs addr o r).1 = if paramIsNum p then writeNum r p o.a else writeInt r p o.raw := by
  unfold wrrRegs
  rw [h]

/-- What WRR can do: nothing, or write the one parameter register at its address. -/
theorem wrrRegs_cases (addr : Nat) :
    (wrrRegs addr o r).1 = r ∨
    ∃ p, paramAddr p = addr ∧ ((wrrRegs addr o r).1 = writeNum r p o.a ∨ (wrrRegs addr o r).1 = writeInt r p o.raw) := by
  cases h : regAt? addr with
  | none => exact .inl (by rw [wrrRegs, h])
  | some x =>
    cases x with
    | state q => exact .inl (by rw [wrrRegs, h])
    | param p =>
      refine .inr ⟨p, regAddr_of_regAt? h, ?_⟩
      rw [wrrRegs_param o r h]
      cases paramIsNum p with
      | true => exact .inl rfl
      | false => exact .inr rfl

/-- WRR writes in the parameter half alone. -/
theorem wrrRegs_eq_setPar (addr : Nat) : ∃ q, (wrrRegs addr o r).1 = { r with par := q } := by
  rcases wrrRegs_cases o r addr with h | ⟨p, -, h | h⟩
  · exact ⟨r.par, h⟩
  · exact ⟨_, h⟩
  · exact ⟨_, h⟩

theorem rdrRegs_regs (addr : Nat) : (rdrRegs addr r).1 = r := by
  unfold rdrRegs
  split <;> rfl

theorem noiseNextRegs_par : (noiseNextRegs C r).1.par = r.par := by
  unfold noiseNextRegs
  split <;> rfl

theorem fltApplyRegs_par (tf tq : Bool) (x lfo : α) : (fltApplyRegs C tf tq x lfo r).1.par = r.par := by
  unfold fltApplyRegs
  split <;> rfl

/-- No command but WRR writes in the parameter half. -/
theorem apply_par {i : Instr} (h : ∀ addr, i ≠ .wrr addr) : (apply C i o r).1.par = r.par := by
  cases i with
  | wrr addr => exact absurd rfl (h addr)
  | rdr addr => exact congrArg Regs.par (rdrRegs_regs r addr)
  | oscStart k | oscUpd k tf tc | oscNext k => exact setOscRegs_par _ _ _
  | noiseNext => exact noiseNextRegs_par C r
  | fltApply tf tq => exact fltApplyRegs_par C r tf tq o.a o.b
  | _ => rfl

variable {r}

theorem readParam_congr {r' : Regs α} (h : r'.par = r.par) (p : ParamReg) : readParam r' p = readParam r p := by
  cases p <;> simp only [readParam, h]

/-- A parameter register that WRR changes is the one at its address. -/
theorem addr_of_readParam_wrrRegs_ne {addr : Nat} {p : ParamReg}
    (h : readParam (wrrRegs addr o r).1 p ≠ readParam r p) : addr = paramAddr p := by
  rcases wrrRegs_cases o r addr with he | ⟨q, rfl, he⟩
  · exact absurd (by rw [he]) h
  · by_contra hne
    have hpq : p ≠ q := fun e => hne (congrArg paramAddr e.symm)
    rcases he with he | he
    · exact h (by rw [he, readParam_writeNum_other r q _ hpq])
    · exact h (by rw [he, readParam_writeInt_other r q _ hpq])

variable (r)

theorem readState_wrrRegs (addr : Nat) (q : StateReg) : readState (wrrRegs addr o r).1 q = readState r q := by
  obtain ⟨par, h⟩ := wrrRegs_eq_setPar o r addr
  rw [h]
  cases q <;> rfl

theorem readState_noiseNext {q : StateReg} (h : mayWrite q .noiseNext = false) :
    readState (noiseNextRegs C r).1 q = readState r q := by
  unfold noiseNextRegs
  split
  · rfl
  · cases q with
    | envNRel0 => exact congrArg RegVal.num (envNext_rel0 C _ _ _)
    | noiseRng | noiseLp | envNStage | envNT | envNLevel => cases h
    | _ => rfl

theorem readState_fltApply (tf tq : Bool) (x lfo : α) {q : StateReg} (h : mayWrite q (.fltApply tf tq) = false) :
    readState (fltApplyRegs C tf tq x lfo r).1 q = readState r q := by
  unfold fltApplyRegs
  split
  · rfl
  · cases q with
    | envFRel0 => exact congrArg RegVal.num (envNext_rel0 C _ _ _)
    | fltS1 | fltS2 | envFStage | envFT | envFLevel => cases h
    | _ => rfl

theorem readState_envNext {q : StateReg} (h : mayWrite q .envNext = false) :
    readState (envNextRegs C r).1 q = readState r q := by
  cases q with
  | envARel0 => exact congrArg RegVal.num (envNext_rel0 C _ _ _)
  | envAStage | envAT | envALevel => cases h
  | _ => rfl

/-- A state register keeps its value under every command that its row does not name: the commands write whole units, and in
them keep the registers of other rows. -/
theorem readState_apply {i : Instr} {q : StateReg} (h : mayWrite q i = false) :
    readState (apply C i o r).1 q = readState r q := by
  cases i with
  | nop | envClosed | lfoQry => rfl
  | wrr addr => exact readState_wrrRegs o r addr q
  | rdr addr => exact congrArg (readState · q) (rdrRegs_regs r addr)
  | envNext => exact readState_envNext C r h
  | noiseNext => exact readState_noiseNext C r h
  | fltApply tf tq => exact readState_fltApply C r tf tq o.a o.b h
  | oscStart k | oscUpd k tf tc | oscNext k => cases k <;> cases q <;> first | rfl | cases h
  | _ => cases q <;> first | rfl | cases h

end

/-! ### The machine's registers are those of the command on values -/

section
variable {r : Regs Num32} (n : Nat)

/-- What a command leaves: the registers as they were, or those of the command on values, for some operands. -/
def LeavesValue (i : Instr) (r r' : Regs Num32) : Prop :=
  r' = r ∨ ∃ o, r' = (apply (binary32 n) i o r).1

theorem leavesValue_withOperand {i : Instr} (a : Word) {run : Num32 → Completion Num32 32}
    (h : ∀ v, LeavesValue n i r (run v).1) : LeavesValue n i r (withOperand (binary32Port n) a r run).1 := by
  rcases withOperand_cases (binary32Port n) a r run with ⟨-, he⟩ | ⟨v, -, he⟩ <;> rw [he]
  · exact .inl rfl
  · exact h v

theorem leavesValue_wrr (addr : Nat) (a : Word) :
    LeavesValue n (.wrr addr) r (wrrCommand (binary32Port n) addr a r).1 := by
  unfold wrrCommand
  cases hx : regAt? addr with
  | none => exact .inl rfl
  | some x =>
    cases x with
    | state q => exact .inl rfl
    | param p =>
      have hval : ∀ o, (apply (binary32 n) (.wrr addr) o r).1 =
          if paramIsNum p then writeNum r p o.a else writeInt r p o.raw := fun o => wrrRegs_param o r hx
      dsimp only
      cases hp : paramIsNum p with
      | true => exact leavesValue_withOperand n a fun v => .inr ⟨⟨v, v, a⟩, by rw [hval, hp]; rfl⟩
      | false => exact .inr ⟨⟨⟨0⟩, ⟨0⟩, a⟩, by rw [hval, hp]; rfl⟩

theorem rdrCommand_regs (addr : Nat) : (rdrCommand (binary32Port n) addr r).1 = r := by
  unfold rdrCommand
  split <;> rfl

theorem leavesValue_fltApply (tf tq : Bool) (a b : Word) :
    LeavesValue n (.fltApply tf tq) r (fltApplyCommand (binary32Port n) tf tq a b r).1 := by
  refine leavesValue_withOperand n a fun x => leavesValue_withOperand n b fun lfo => ?_
  split
  · exact .inl rfl
  · exact .inr ⟨⟨x, lfo, a⟩, rfl⟩

theorem leavesValue_runCommand (i : Instr) (a b : Word) :
    LeavesValue n i r (runCommand (binary32Port n) i a b r).1 := by
  cases i with
  | wrr addr => exact leavesValue_wrr n addr a
  | rdr addr => exact .inl (rdrCommand_regs n addr)
  | oscStart k | oscUpd k tf tc => exact leavesValue_withOperand n a fun v => .inr ⟨⟨v, v, a⟩, rfl⟩
  | fltApply tf tq => exact leavesValue_fltApply n tf tq a b
  | _ => exact .inr ⟨⟨⟨0⟩, ⟨0⟩, a⟩, rfl⟩

theorem leavesValue_exec {i : Instr} {s t : State} (h : exec i s = .next t) : LeavesValue s.count i s.regs t.regs := by
  rw [exec_eq] at h
  rw [regs_of_complete _ _ _ h]
  exact leavesValue_runCommand s.count i s.cmdA s.cmdB

theorem leavesValue_block (w a b : Word) : ∃ i, LeavesValue n i r (block (binary32Port n) w a b r).1 := by
  unfold block
  split
  · exact ⟨.nop, .inl rfl⟩
  · exact ⟨_, leavesValue_runCommand n _ a b⟩

end

/-- Settles O34: only WRR writes in the parameter half, and it writes the register at its address. -/
theorem parametersChangeOnlyByWrr : Obligations.ParametersChangeOnlyByWrr := by
  intro i s t hs p hne
  rcases leavesValue_exec hs with he | ⟨o, he⟩ <;> rw [he] at hne
  · exact absurd rfl hne
  by_cases hi : ∀ addr, i ≠ .wrr addr
  · exact absurd (readParam_congr (apply_par _ o _ hi) p) hne
  · obtain ⟨addr, rfl⟩ : ∃ addr, i = .wrr addr := by simpa using hi
    exact congrArg Instr.wrr (addr_of_readParam_wrrRegs_ne o hne)

/-- Settles O35: a command that a row does not name keeps that row's register. -/
theorem stateRegistersChangeOnlyByTheirWriters : Obligations.StateRegistersChangeOnlyByTheirWriters := by
  intro i s t hs q hne
  rcases leavesValue_exec hs with he | ⟨o, he⟩ <;> rw [he] at hne
  · exact absurd rfl hne
  · by_contra hw
    exact hne (readState_apply _ o _ (Bool.eq_false_of_not_eq_true hw))

/-- Settles O56: of the parameters the sample commands read the waveform, drive, gain, depth and enable alone. -/
theorem latchedParametersAreNotReadLive : Obligations.LatchedParametersAreNotReadLive := by
  intro α C i o r fs oct1 cents1 oct2 cents2 freq color dur hi
  rcases hi with rfl | rfl | rfl | rfl
  · rfl
  · rfl
  · dsimp only [apply, done, noiseNextRegs]
    split <;> rfl
  · rfl

end Sys2Proof.Machine
end

section
/-! PROOFS. The invariants of R25 and R34 over any number system whose operations keep the ranges they speak of: each command on
values keeps them, unit by unit. -/

namespace Sys2Proof.Machine

/-! ### The random source never reaches 0 -/

theorem eq_zero_of_eq_shiftLeft_13 {x : BitVec 32} (h : x = x <<< 13) : x = 0 := by bv_omega

theorem eq_zero_of_eq_shiftLeft_5 {x : BitVec 32} (h : x = x <<< 5) : x = 0 := by bv_omega

theorem eq_zero_of_eq_shiftRight_17 {x : BitVec 32} (h : x = x >>> 17) : x = 0 := by bv_omega

/-- Each of the three steps of R154 gives 0 from 0 alone. -/
theorem rngStep_ne_zero {x : BitVec 32} (h : x ≠ 0) : rngStep x ≠ 0 := by
  intro h0
  have h2 := eq_zero_of_eq_shiftLeft_5 (BitVec.xor_eq_zero_iff.1 h0)
  have h1 := eq_zero_of_eq_shiftRight_17 (BitVec.xor_eq_zero_iff.1 h2)
  exact h (eq_zero_of_eq_shiftLeft_13 (BitVec.xor_eq_zero_iff.1 h1))

/-! ### The number system -/

/-- What the ranges of the invariants ask of a number system, whose registers hold numbers that satisfy `num` (in binary32, numbers
of 24 significant bits; in the reference number system, any). -/
structure RangeLaws {α : Type} (C : Config α) (num : α → Prop) : Prop where
  num_add : ∀ x y, num (C.add x y)
  num_mul : ∀ x y, num (C.mul x y)
  unit_zero : unitRange C C.zero = true
  phase0 : phaseOk C C.phase0 = true
  /-- A phase advanced by an increment is wrapped into [0, 1). -/
  wrap : ∀ {x y}, num y → phaseOk C x = true → C.le C.zero y = true → phaseOk C (numFrac C (C.add x y)) = true
  /-- A frequency clamped at 0 gives an increment that is not negative. -/
  rate : ∀ {x} (r : Regs α), num x → C.le C.zero (C.div (numMax C x C.zero) (fsEff C r)) = true
  period : ∀ r : Regs α, unitRange C (samplePeriod C r) = true
  envTime : ∀ {e : Env α} {p : Adsr α} {dt : α}, num e.t → C.le C.zero e.t = true → unitRange C dt = true →
    C.le C.zero (envNext C e p dt).t = true
  envLevel : ∀ {e : Env α} {p : Adsr α} {dt : α}, num e.t → C.le C.zero e.t = true → unitRange C dt = true →
    unitRange C p.sustain = true → unitRange C e.rel0 = true → unitRange C (envNext C e p dt).level = true

/-- Every numeric register holds a number that satisfies `num`. -/
def HoldsNums {α : Type} (num : α → Prop) (r : Regs α) : Prop := ∀ x v, readReg r x = .num v → num v

/-! ### The invariants, unit by unit -/

section
variable {α : Type} (C : Config α)

/-- A phase register in [0, 1) and its increment, not negative. -/
abbrev PhaseInc (phase inc : α) : Prop := phaseOk C phase = true ∧ C.le C.zero inc = true

/-- `signalInv`, so that a command's proof speaks of the units it writes alone. -/
structure SignalOk (r : Regs α) : Prop where
  osc1 : PhaseInc C r.osc1.phase r.osc1.inc
  osc2 : PhaseInc C r.osc2.phase r.osc2.inc
  lfo : PhaseInc C r.lfo.phase r.lfo.inc
  rng : r.noise.rng ≠ 0
  dt : unitRange C r.noise.dt = true
  envA : C.le C.zero r.envA.t = true
  envN : C.le C.zero r.envN.t = true
  envF : C.le C.zero r.envF.t = true

/-- `levelInv`, the same way. -/
structure LevelOk (r : Regs α) : Prop where
  envA : envLevels C r.envA = true
  envN : envLevels C r.envN = true
  envF : envLevels C r.envF = true

variable {C}

theorem signalInv_iff (r : Regs α) : signalInv C r = true ↔ SignalOk C r := by
  simp only [signalInv, oscInv, lfoInv, Bool.and_eq_true, bne_iff_ne]
  constructor
  · rintro ⟨⟨⟨⟨⟨⟨⟨h1, h2⟩, hl⟩, hrng⟩, hdt⟩, hA⟩, hN⟩, hF⟩
    exact ⟨h1, h2, hl, hrng, hdt, hA, hN, hF⟩
  · rintro ⟨h1, h2, hl, hrng, hdt, hA, hN, hF⟩
    exact ⟨⟨⟨⟨⟨⟨⟨h1, h2⟩, hl⟩, hrng⟩, hdt⟩, hA⟩, hN⟩, hF⟩

theorem levelInv_iff (r : Regs α) : levelInv C r = true ↔ LevelOk C r := by
  simp only [levelInv, Bool.and_eq_true]
  exact ⟨fun ⟨⟨hA, hN⟩, hF⟩ => ⟨hA, hN, hF⟩, fun ⟨hA, hN, hF⟩ => ⟨⟨hA, hN⟩, hF⟩⟩

theorem envLevels_iff (e : Env α) : envLevels C e = true ↔ unitRange C e.level = true ∧ unitRange C e.rel0 = true := by
  simp only [envLevels, Bool.and_eq_true]

theorem RangeLaws.zero_le {num : α → Prop} (L : RangeLaws C num) : C.le C.zero C.zero = true := by
  have := L.unit_zero
  simp only [unitRange, inRange, Bool.and_eq_true] at this
  exact this.1

theorem SignalOk.osc {r : Regs α} (h : SignalOk C r) (k : OscId) : PhaseInc C (oscRegs r k).phase (oscRegs r k).inc :=
  match k with
  | .osc1 => h.osc1
  | .osc2 => h.osc2

theorem SignalOk.setOsc {r : Regs α} (h : SignalOk C r) (k : OscId) {o : OscState α} (ho : PhaseInc C o.phase o.inc) :
    SignalOk C (setOscRegs r k o) :=
  match k with
  | .osc1 => { h with osc1 := ho }
  | .osc2 => { h with osc2 := ho }

theorem LevelOk.setOsc {r : Regs α} (h : LevelOk C r) (k : OscId) (o : OscState α) : LevelOk C (setOscRegs r k o) :=
  match k with
  | .osc1 => { h with }
  | .osc2 => { h with }

theorem HoldsNums.oscInc {num : α → Prop} {r : Regs α} (h : HoldsNums num r) (k : OscId) : num (oscRegs r k).inc :=
  match k with
  | .osc1 => h (.state .osc1Inc) _ rfl
  | .osc2 => h (.state .osc2Inc) _ rfl

end

/-! ### What one unit does -/

/-- The release ramp starts at the level. -/
theorem envLevels_envOff {α : Type} {C : Config α} {e : Env α} (h : envLevels C e = true) :
    envLevels C (envOff C e) = true :=
  (envLevels_iff _).2 ⟨((envLevels_iff e).1 h).1, ((envLevels_iff e).1 h).1⟩

section
variable {α : Type} {C : Config α} {num : α → Prop} (L : RangeLaws C num)
include L

theorem envLevels_envOn : envLevels C (envOn C) = true := (envLevels_iff _).2 ⟨L.unit_zero, L.unit_zero⟩

theorem envLevels_envNext {e : Env α} {p : Adsr α} {dt : α} (hl : envLevels C e = true) (ht : num e.t)
    (h0 : C.le C.zero e.t = true) (hdt : unitRange C dt = true) (hs : unitRange C p.sustain = true) :
    envLevels C (envNext C e p dt) = true := by
  have hrel := ((envLevels_iff e).1 hl).2
  rw [envLevels_iff, envNext_rel0]
  exact ⟨L.envLevel ht h0 hdt hs hrel, hrel⟩

/-- The effective frequency of OSC.UPD is clamped at 0, so the increment is not negative. -/
theorem oscFreq_rate (r : Regs α) (p : OscParams α) (base lfo : α) (tf tc : Bool) :
    C.le C.zero (C.div (oscFreq C p base lfo tf tc) (fsEff C r)) = true :=
  match tf with
  | true => L.rate r (L.num_add _ _)
  | false => L.rate r (L.num_mul _ _)

end

/-! ### Each command keeps them -/

section
variable {α : Type} {C : Config α} {num : α → Prop} {r : Regs α} (L : RangeLaws C num) (hn : HoldsNums num r)
include L hn

theorem SignalOk.noiseNext (h : SignalOk C r) : SignalOk C (noiseNextRegs C r).1 := by
  unfold noiseNextRegs
  split
  · exact h
  · exact { h with
      rng := rngStep_ne_zero h.rng
      envN := L.envTime (hn (.state .envNT) _ rfl) h.envN h.dt }

theorem SignalOk.fltApply (h : SignalOk C r) (tf tq : Bool) (x lfo : α) : SignalOk C (fltApplyRegs C tf tq x lfo r).1 := by
  unfold fltApplyRegs
  split
  · exact h
  · exact { h with envF := L.envTime (hn (.state .envFT) _ rfl) h.envF (L.period r) }

/-- With no premise on parameters or operands every command keeps phases, increments, times and the noise register. -/
theorem signalOk_apply (h : SignalOk C r) (i : Instr) (o : Operands α) : SignalOk C (apply C i o r).1 := by
  cases i with
  | nop | envClosed | lfoQry => exact h
  | wrr addr =>
    obtain ⟨q, hq⟩ := wrrRegs_eq_setPar o r addr
    exact (congrArg (SignalOk C) hq).mpr { h with }
  | rdr addr => exact (congrArg (SignalOk C) (rdrRegs_regs r addr)).mpr h
  | envOn | envOff => exact { h with envA := L.zero_le }
  | envNext => exact { h with envA := L.envTime (hn (.state .envAT) _ rfl) h.envA (L.period r) }
  | oscStart k => exact h.setOsc k ⟨L.phase0, (h.osc k).2⟩
  | oscUpd k tf tc => exact h.setOsc k ⟨(h.osc k).1, oscFreq_rate L r _ _ _ tf tc⟩
  | oscNext k => exact h.setOsc k ⟨L.wrap (hn.oscInc k) (h.osc k).1 (h.osc k).2, (h.osc k).2⟩
  | noiseStart | noiseStop => exact { h with envN := L.zero_le }
  | noiseUpd => exact { h with dt := L.period r }
  | noiseNext => exact h.noiseNext L hn
  | lfoUpd => exact { h with lfo := ⟨h.lfo.1, L.rate r (hn (.param .lfoFreq) _ rfl)⟩ }
  | lfoNext => exact { h with lfo := ⟨L.wrap (hn (.state .lfoInc) _ rfl) h.lfo.1 h.lfo.2, h.lfo.2⟩ }
  | fltStart | fltStop => exact { h with envF := L.zero_le }
  | fltApply tf tq => exact h.fltApply L hn tf tq o.a o.b

variable (hs : SignalOk C r)
include hs

theorem LevelOk.noiseNext (h : LevelOk C r) : LevelOk C (noiseNextRegs C r).1 := by
  unfold noiseNextRegs
  split
  · exact h
  · exact { h with envN := envLevels_envNext L h.envN (hn (.state .envNT) _ rfl) hs.envN hs.dt L.unit_zero }

theorem LevelOk.fltApply (h : LevelOk C r) (hF : unitRange C r.par.flt.adsr.sustain = true) (tf tq : Bool) (x lfo : α) :
    LevelOk C (fltApplyRegs C tf tq x lfo r).1 := by
  unfold fltApplyRegs
  split
  · exact h
  · exact { h with envF := envLevels_envNext L h.envF (hn (.state .envFT) _ rfl) hs.envF (L.period r) hF }

/-- With the two sustain levels in [0, 1] every command keeps the levels of the three envelopes in [0, 1]. -/
theorem levelOk_apply (h : LevelOk C r) (hA : unitRange C r.par.amp.sustain = true)
    (hF : unitRange C r.par.flt.adsr.sustain = true) (i : Instr) (o : Operands α) : LevelOk C (apply C i o r).1 := by
  cases i with
  | nop | envClosed | lfoQry => exact h
  | wrr addr =>
    obtain ⟨q, hq⟩ := wrrRegs_eq_setPar o r addr
    exact (congrArg (LevelOk C) hq).mpr { h with }
  | rdr addr => exact (congrArg (LevelOk C) (rdrRegs_regs r addr)).mpr h
  | envOn => exact { h with envA := envLevels_envOn L }
  | envOff => exact { h with envA := envLevels_envOff h.envA }
  | envNext => exact { h with envA := envLevels_envNext L h.envA (hn (.state .envAT) _ rfl) hs.envA (L.period r) hA }
  | oscStart k | oscUpd k tf tc | oscNext k => exact h.setOsc k _
  | noiseUpd | lfoUpd | lfoNext => exact { h with }
  | noiseStart => exact { h with envN := envLevels_envOn L }
  | noiseStop => exact { h with envN := envLevels_envOff h.envN }
  | noiseNext => exact h.noiseNext L hn hs
  | fltStart => exact { h with envF := envLevels_envOn L }
  | fltStop => exact { h with envF := envLevels_envOff h.envF }
  | fltApply tf tq => exact h.fltApply L hn hs hF tf tq o.a o.b

end

end Sys2Proof.Machine
end

section
/-! PROOFS. The invariants of the machine in binary32, with its rounding (R34, R120). -/

namespace Sys2Proof.Machine

section
variable (n : Nat) (x : Num32)

theorem unitRange_binary32 : unitRange (binary32 n) x = true ↔ 0 ≤ x.units ∧ x.units ≤ 2 ^ 149 := by
  simp only [unitRange, inRange, binary32_le, binary32_zero, binary32_one, Bool.and_eq_true, decide_eq_true_eq]

theorem phaseOk_binary32 : phaseOk (binary32 n) x = true ↔ 0 ≤ x.units ∧ x.units < 2 ^ 149 := by
  simp only [phaseOk, binary32_le, binary32_lt, binary32_zero, binary32_one, Bool.and_eq_true, decide_eq_true_eq]

theorem zero_le_binary32 : (binary32 n).le (binary32 n).zero x = true ↔ 0 ≤ x.units := by
  simp only [binary32_le, binary32_zero, decide_eq_true_eq]

/-- A number clamped at 0 is a number that is not negative. -/
theorem numMax_zero_binary32 (h : isBinary32 x = true) :
    isBinary32 (numMax (binary32 n) x (binary32 n).zero) = true ∧ 0 ≤ (numMax (binary32 n) x (binary32 n).zero).units := by
  refine ⟨?_, ?_⟩
  · unfold numMax
    split
    · exact isBinary32_zero
    · exact h
  · rw [units_numMax]
    exact le_max_right _ _

end

/-- Binary32 keeps the ranges: rounding does not cross 0 or 1, and `frac` is exact. -/
theorem rangeLaws_binary32 (n : Nat) : RangeLaws (binary32 n) (isBinary32 · = true) where
  num_add _ _ := isBinary32_add32 _ _ _
  num_mul _ _ := isBinary32_mul32 _ _ _
  unit_zero := (unitRange_binary32 n _).2 (by decide : (0 : Int) ≤ 0 ∧ (0 : Int) ≤ 2 ^ 149)
  phase0 := (phaseOk_binary32 n _).2 (by decide +kernel : 0 ≤ (lit32 0 1).units ∧ (lit32 0 1).units < 2 ^ 149)
  wrap {x y} hy hx h0 := by
    rw [phaseOk_binary32] at hx ⊢
    rw [zero_le_binary32] at h0
    exact frac32_bounds (isBinary32_add32 n x y) (add32_nonneg' hy h0 hx.1 hx.2.le)
  rate {x} r hx := by
    obtain ⟨hwf, h0⟩ := numMax_zero_binary32 n x hx
    exact (zero_le_binary32 n _).2 (div32_bounds hwf h0 (fsEff_ge_one n r)).1
  period r := (unitRange_binary32 n _).2 (div32_bounds isBinary32_one (by decide : (0 : Int) ≤ 2 ^ 149) (fsEff_ge_one n r))
  envTime {e p dt} ht h0 hdt := by
    rw [zero_le_binary32] at h0 ⊢
    rw [unitRange_binary32] at hdt
    exact envNext_time ht h0 hdt.1 hdt.2
  envLevel {e p dt} ht h0 hdt hs hr := by
    rw [zero_le_binary32] at h0
    rw [unitRange_binary32] at hdt hs hr ⊢
    exact envNext_level ht h0 hdt.1 hdt.2 hs.1 hs.2 hr.1 hr.2

theorem holdsNums_of_regsWf {r : Regs Num32} (h : regsWf r = true) : HoldsNums (isBinary32 · = true) r := by
  intro x v hx
  have hv := (regsWf_iff_forall r).1 h x
  rwa [hx] at hv

/-- The invariants do not read the command's number. -/
theorem signalInv_binary32 (n : Nat) (r : Regs Num32) : signalInv (binary32 n) r = signalInv (binary32 0) r := by
  simp only [signalInv, oscInv, lfoInv, phaseOk, unitRange, inRange, binary32_le, binary32_lt, binary32_zero, binary32_one]

theorem levelInv_binary32 (n : Nat) (r : Regs Num32) : levelInv (binary32 n) r = levelInv (binary32 0) r := by
  simp only [levelInv, envLevels, unitRange, inRange, binary32_le, binary32_zero, binary32_one]

/-- A command on values in binary32 keeps the phases, increments, times and noise register in their ranges. -/
theorem signalInv_apply_binary32 (n : Nat) {r : Regs Num32} (hwf : regsWf r = true)
    (hsig : signalInv (binary32 0) r = true) (i : Instr) (o : Operands Num32) :
    signalInv (binary32 0) (apply (binary32 n) i o r).1 = true := by
  rw [← signalInv_binary32 n, signalInv_iff] at hsig ⊢
  exact signalOk_apply (rangeLaws_binary32 n) (holdsNums_of_regsWf hwf) hsig i o

/-- It keeps the levels, for sustain levels in [0, 1]. -/
theorem levelInv_apply_binary32 (n : Nat) {r : Regs Num32} (hwf : regsWf r = true)
    (hsig : signalInv (binary32 0) r = true) (hA : unitRange (binary32 0) r.par.amp.sustain = true)
    (hF : unitRange (binary32 0) r.par.flt.adsr.sustain = true) (hlev : levelInv (binary32 0) r = true) (i : Instr)
    (o : Operands Num32) : levelInv (binary32 0) (apply (binary32 n) i o r).1 = true := by
  rw [unitRange_binary32, ← unitRange_binary32 n] at hA hF
  rw [← signalInv_binary32 n, signalInv_iff] at hsig
  rw [← levelInv_binary32 n, levelInv_iff] at hlev ⊢
  exact levelOk_apply (rangeLaws_binary32 n) (holdsNums_of_regsWf hwf) hsig hlev hA hF i o

/-- The registers after a step: those before, those of reset, or those of one command on values. -/
theorem step_regs_value {s t : State} (h : step s = .next t) :
    t.regs = s.regs ∨ t.regs = State.reset.regs ∨ ∃ n i o, t.regs = (apply (binary32 n) i o s.regs).1 := by
  rcases step_regs h with ht | ht | ⟨n, w, a, b, ht⟩
  · exact .inl ht
  · exact .inr (.inl ht)
  · obtain ⟨i, hr | ⟨o, ho⟩⟩ := leavesValue_block (r := s.regs) n w a b
    · exact .inl (ht.trans hr)
    · exact .inr (.inr ⟨n, i, o, ht.trans ho⟩)

/-- Settles O41: binary32 keeps the ranges, so every command on values keeps the invariant. -/
theorem stepKeepsTheSignalInvariant : Obligations.StepKeepsTheSignalInvariant := by
  intro s t hwf hsig hstep
  obtain ⟨-, hreset, -⟩ := resetMeetsTheInvariants
  rcases step_regs_value hstep with ht | ht | ⟨n, i, o, ht⟩ <;> rw [ht]
  · exact hsig
  · exact hreset
  · exact signalInv_apply_binary32 n hwf hsig i o

/-- Settles O42, in the same way; the levels of a decay or sustain stage are bounded by the sustain level. -/
theorem stepKeepsLevelsInUnitRange : Obligations.StepKeepsLevelsInUnitRange := by
  intro s t hwf hsig hA hF hlev hstep
  obtain ⟨-, -, hreset, -⟩ := resetMeetsTheInvariants
  rcases step_regs_value hstep with ht | ht | ⟨n, i, o, ht⟩ <;> rw [ht]
  · exact hlev
  · exact hreset
  · exact levelInv_apply_binary32 n hwf hsig hA hF hlev i o

end Sys2Proof.Machine
end

section
/-! PROOFS. Ranges in the reference number system: the invariant of R34, and the filter's coefficients (R193, U14). -/

namespace Sys2Proof.Machine

/-! ### The operations of the real numbers -/

@[simp] theorem reference_zero : reference.zero = 0 := rfl
@[simp] theorem reference_one : reference.one = 1 := rfl
@[simp] theorem reference_add (x y : ℝ) : reference.add x y = x + y := rfl
@[simp] theorem reference_sub (x y : ℝ) : reference.sub x y = x - y := rfl
@[simp] theorem reference_mul (x y : ℝ) : reference.mul x y = x * y := rfl
@[simp] theorem reference_lit (n : Int) (d : Nat) : reference.lit n d = (n : ℝ) / (d : ℝ) := rfl
@[simp] theorem reference_le (x y : ℝ) : reference.le x y = decide (x ≤ y) := rfl
@[simp] theorem reference_lt (x y : ℝ) : reference.lt x y = decide (x < y) := rfl

theorem reference_constants : reference.toConstants = defaultConstants fun n d => (n : ℝ) / (d : ℝ) := rfl

theorem reference_div (x : ℝ) {y : ℝ} (h : 0 < y) : reference.div x y = x / y := if_neg h.ne'

section
variable (x y lo hi : ℝ)

theorem numMin_reference : numMin reference x y = min x y := by
  simp only [numMin, reference_le, decide_eq_true_eq, min_def]

theorem numMax_reference : numMax reference x y = max x y := by
  simp only [numMax, reference_le, decide_eq_true_eq, max_def]

theorem numClamp_reference : numClamp reference x lo hi = min (max x lo) hi := by
  rw [numClamp, numMin_reference, numMax_reference]

theorem numFrac_reference : numFrac reference x = Int.fract x := rfl

theorem zero_le_reference : reference.le reference.zero x = true ↔ 0 ≤ x := by simp

theorem inRange_reference : inRange reference lo x hi = true ↔ lo ≤ x ∧ x ≤ hi := by simp [inRange]

theorem unitRange_reference : unitRange reference x = true ↔ 0 ≤ x ∧ x ≤ 1 := inRange_reference x 0 1

theorem phaseOk_reference : phaseOk reference x = true ↔ 0 ≤ x ∧ x < 1 := by simp [phaseOk]

theorem bipolar_reference : bipolar reference x = true ↔ -1 ≤ x ∧ x ≤ 1 := by
  rw [bipolar, inRange_reference, reference_lit]
  norm_num

end

theorem fsEff_reference (r : Regs ℝ) : fsEff reference r = max r.par.fs 1 := by
  rw [fsEff, numMax_reference, reference_constants]
  norm_num [defaultConstants]

theorem one_le_fsEff_reference (r : Regs ℝ) : 1 ≤ fsEff reference r := by
  rw [fsEff_reference]
  exact le_max_right _ _

theorem flooredTime_reference_pos (x : ℝ) : 0 < flooredTime reference x := by
  rw [flooredTime, numMax_reference, reference_constants]
  exact lt_max_of_lt_right (by norm_num [defaultConstants])

/-! ### The number system keeps the ranges -/

/-- Elapsed time over total time, while the total is not reached. -/
theorem ratio_reference_bounds {t x : ℝ} (ht : 0 ≤ t) (h : reference.le (flooredTime reference x) t = false) :
    0 ≤ reference.div t (flooredTime reference x) ∧ reference.div t (flooredTime reference x) ≤ 1 := by
  have hpos := flooredTime_reference_pos x
  have hlt : t < flooredTime reference x := by simpa using h
  rw [reference_div t hpos]
  exact ⟨div_nonneg ht hpos.le, (div_le_one hpos).2 hlt.le⟩

section
variable {e : Env ℝ} {p : Adsr ℝ} {dt : ℝ}

theorem envNext_reference_time (ht : 0 ≤ e.t) (hd : 0 ≤ dt) : 0 ≤ (envNext reference e p dt).t := by
  have hadd : 0 ≤ reference.add e.t dt := add_nonneg ht hd
  rcases envNext_cases reference e p dt with ⟨-, h⟩ | ⟨-, -, h⟩ | ⟨-, -, h⟩ | ⟨-, -, h⟩ | ⟨-, -, h⟩ | ⟨-, h⟩ | ⟨-, -, h⟩ |
    ⟨-, -, h⟩ <;> rw [h]
  · exact ht
  · exact le_refl _
  · exact hadd
  · exact le_refl _
  · exact hadd
  · exact ht
  · exact le_refl _
  · exact hadd

/-- A step of an envelope whose sustain level is in [0, 1] gives a level in [0, 1] (R120). -/
theorem envNext_reference_level (ht : 0 ≤ e.t) (hd : 0 ≤ dt) (hs : 0 ≤ p.sustain ∧ p.sustain ≤ 1)
    (hr : 0 ≤ e.rel0 ∧ e.rel0 ≤ 1) : 0 ≤ (envNext reference e p dt).level ∧ (envNext reference e p dt).level ≤ 1 := by
  have hadd : 0 ≤ reference.add e.t dt := add_nonneg ht hd
  rcases envNext_cases reference e p dt with ⟨-, h⟩ | ⟨-, -, h⟩ | ⟨-, hf, h⟩ | ⟨-, -, h⟩ | ⟨-, hf, h⟩ | ⟨-, h⟩ |
    ⟨-, -, h⟩ | ⟨-, hf, h⟩ <;> rw [h]
  · exact ⟨le_refl _, zero_le_one⟩
  · exact ⟨zero_le_one, le_refl _⟩
  · exact ratio_reference_bounds hadd hf
  · exact hs
  · have hq := ratio_reference_bounds hadd hf
    have hs' := Set.Icc.one_sub_mem hs
    exact Set.Icc.one_sub_mem (unitInterval.mul_mem hs' hq)
  · exact hs
  · exact ⟨le_refl _, zero_le_one⟩
  · have hq := ratio_reference_bounds hadd hf
    exact unitInterval.mul_mem hr (Set.Icc.one_sub_mem hq)

end

theorem rangeLaws_reference : RangeLaws reference fun _ => True where
  num_add _ _ := trivial
  num_mul _ _ := trivial
  unit_zero := (unitRange_reference _).2 ⟨le_refl _, zero_le_one⟩
  phase0 := (phaseOk_reference _).2 (by norm_num [reference_constants, defaultConstants])
  wrap _ _ _ := by
    rw [phaseOk_reference, numFrac_reference]
    exact ⟨Int.fract_nonneg _, Int.fract_lt_one _⟩
  rate {x} r _ := by
    have hfs : 0 < fsEff reference r := zero_lt_one.trans_le (one_le_fsEff_reference r)
    rw [zero_le_reference, reference_div _ hfs, numMax_reference]
    exact div_nonneg (le_max_right _ _) hfs.le
  period r := by
    have hfs := one_le_fsEff_reference r
    rw [unitRange_reference, samplePeriod, reference_div _ (zero_lt_one.trans_le hfs)]
    exact ⟨div_nonneg zero_le_one (zero_le_one.trans hfs), div_le_one_of_le₀ hfs (zero_le_one.trans hfs)⟩
  envTime _ ht hdt := by
    rw [zero_le_reference] at ht ⊢
    exact envNext_reference_time ht ((unitRange_reference _).1 hdt).1
  envLevel _ ht hdt hs hr := by
    rw [zero_le_reference] at ht
    rw [unitRange_reference] at hdt hs hr ⊢
    exact envNext_reference_level ht hdt.1 hs hr

/-! ### The noise filter -/

/-- A draw is in [-1, 1] (R154). -/
theorem rngValue_reference_bounds (x : BitVec 32) : -1 ≤ rngValue reference x ∧ rngValue reference x ≤ 1 := by
  have hlt : (x >>> 8).toNat < 2 ^ 24 := by simp; omega
  have hlt' : ((x >>> 8).toNat : ℝ) < 2 ^ 24 := by exact_mod_cast hlt
  have h0 : (0 : ℝ) ≤ (x >>> 8).toNat := Nat.cast_nonneg _
  rw [rngValue, reference_lit, le_div_iff₀ (by positivity), div_le_iff₀ (by positivity)]
  push_cast
  constructor <;> linarith

/-- With a colour that is not negative the `w` of R153 is not negative. -/
theorem noiseOmega_reference_nonneg {r : Regs ℝ} (h : 0 ≤ r.par.noise.color) : 0 ≤ noiseOmega reference r := by
  have hfs : 0 < fsEff reference r := zero_lt_one.trans_le (one_le_fsEff_reference r)
  have hpi := Real.pi_pos
  rw [noiseOmega, reference_div _ hfs, reference_twoPi]
  simp only [reference_mul, reference_add, reference_constants, defaultConstants]
  positivity

/-- The coefficient `w / (1 + w)` of R153 is in [0, 1). -/
theorem noiseCoefficient_bounds {w : ℝ} (h : 0 ≤ w) :
    phaseOk reference (reference.div w (reference.add reference.one w)) = true := by
  have hpos : 0 < reference.add reference.one w := add_pos_of_pos_of_nonneg zero_lt_one h
  rw [phaseOk_reference, reference_div _ hpos]
  exact ⟨div_nonneg h hpos.le, (div_lt_one hpos).2 (lt_one_add w)⟩

theorem noiseInv_iff {α : Type} {C : Config α} (r : Regs α) :
    noiseInv C r = true ↔ bipolar C r.noise.lp = true ∧ phaseOk C r.noise.a = true := by
  rw [noiseInv, Bool.and_eq_true]

/-- The low-pass state moves towards a draw by a part in [0, 1) of the way, so it stays between the two. -/
theorem noiseInv_noiseNext {r : Regs ℝ} (h : noiseInv reference r = true) :
    noiseInv reference (noiseNextRegs reference r).1 = true := by
  unfold noiseNextRegs
  split
  · exact h
  rw [noiseInv_iff] at h ⊢
  obtain ⟨hlp, ha⟩ := h
  refine ⟨?_, ha⟩
  have hv := rngValue_reference_bounds (rngStep r.noise.rng)
  rw [bipolar_reference] at hlp ⊢
  obtain ⟨ha0, ha1⟩ := (phaseOk_reference _).1 ha
  have hmix : ∀ a lp v : ℝ, lp + a * (v - lp) = (1 - a) • lp + a • v := fun a lp v => by
    simp only [smul_eq_mul]
    ring
  simp only [reference_add, reference_mul, reference_sub, hmix]
  exact convex_Icc (-1) 1 hlp hv (sub_nonneg.2 ha1.le) ha0 (sub_add_cancel 1 _)

theorem noiseInv_congr {α : Type} {C : Config α} {r r' : Regs α} (h : r'.noise = r.noise) : noiseInv C r' = noiseInv C r := by
  rw [noiseInv, noiseInv, h]

theorem fltApplyRegs_noise {α : Type} (C : Config α) (tf tq : Bool) (x lfo : α) (r : Regs α) :
    (fltApplyRegs C tf tq x lfo r).1.noise = r.noise := by
  unfold fltApplyRegs
  split <;> rfl

/-- Every command keeps the noise filter's ranges, for a colour that is not negative. -/
theorem noiseInv_apply {r : Regs ℝ} (hcolor : 0 ≤ r.par.noise.color) (h : noiseInv reference r = true) (i : Instr)
    (o : Operands ℝ) : noiseInv reference (apply reference i o r).1 = true := by
  cases i with
  | wrr addr =>
    obtain ⟨q, hq⟩ := wrrRegs_eq_setPar o r addr
    exact (noiseInv_congr (congrArg Regs.noise hq)).trans h
  | rdr addr => exact (congrArg (noiseInv reference) (rdrRegs_regs r addr)).trans h
  | oscStart k | oscUpd k tf tc | oscNext k => exact (noiseInv_congr (setOscRegs_noise _ _ _)).trans h
  | noiseStart =>
    exact (noiseInv_iff _).2 ⟨(bipolar_reference 0).2 (by norm_num), ((noiseInv_iff r).1 h).2⟩
  | noiseUpd =>
    exact (noiseInv_iff _).2 ⟨((noiseInv_iff r).1 h).1, noiseCoefficient_bounds (noiseOmega_reference_nonneg hcolor)⟩
  | noiseNext => exact noiseInv_noiseNext h
  | fltApply tf tq => exact (noiseInv_congr (fltApplyRegs_noise _ _ _ _ _ _)).trans h
  | _ => exact h

/-! ### The invariant of R34 -/

/-- What the invariant needs of the nominal ranges: the two sustain levels and the noise colour. -/
theorem nominalParams_needed {p : ParamRegs ℝ} (h : nominalParams reference p = true) :
    unitRange reference p.amp.sustain = true ∧ unitRange reference p.flt.adsr.sustain = true ∧ 0 ≤ p.noise.color := by
  simp only [nominalParams, nominalNoise, nominalFlt, nominalAdsr, Bool.and_eq_true] at h
  obtain ⟨⟨⟨-, ⟨hcolor, -⟩, -⟩, -, ⟨-, hflt⟩, -⟩, ⟨-, hamp⟩, -⟩ := h
  exact ⟨hamp, hflt, ((unitRange_reference _).1 hcolor).1⟩

theorem coreInv_apply {r : Regs ℝ} (hp : nominalParams reference r.par = true) (h : coreInv reference r = true) (i : Instr)
    (o : Operands ℝ) : coreInv reference (apply reference i o r).1 = true := by
  obtain ⟨hA, hF, hcolor⟩ := nominalParams_needed hp
  simp only [coreInv, Bool.and_eq_true, signalInv_iff, levelInv_iff] at h ⊢
  obtain ⟨⟨hsig, hlev⟩, hnoise⟩ := h
  have hn : HoldsNums (fun _ : ℝ => True) r := fun _ _ _ => trivial
  exact ⟨⟨signalOk_apply rangeLaws_reference hn hsig i o, levelOk_apply rangeLaws_reference hn hsig hlev hA hF i o⟩,
    noiseInv_apply hcolor hnoise i o⟩

/-- The invariant holds after any list of commands issued with parameters in their nominal ranges. -/
theorem coreInv_valueRun (cmds : List (Instr × Operands ℝ)) {r : Regs ℝ} (hrun : nominalRun reference cmds r)
    (h : coreInv reference r = true) : coreInv reference (valueRun reference cmds r) = true := by
  induction cmds generalizing r with
  | nil => exact h
  | cons c rest ih =>
    obtain ⟨hp, -, hrest⟩ := hrun
    exact ih hrest (coreInv_apply hp h c.1 c.2)

/-- Settles O49: the reference number system keeps the ranges, so every command does, and the run by induction. -/
theorem referenceRunKeepsTheCoreInvariant : Obligations.ReferenceRunKeepsTheCoreInvariant :=
  ⟨fun i o _ hp _ h => coreInv_apply hp h i o, coreInv_resetRegs_reference,
    fun cmds hrun => coreInv_valueRun cmds hrun coreInv_resetRegs_reference⟩

/-! ### The filter -/

/-- The cutoff is positive and at most 7/16 of the sample rate. -/
theorem fltCutoff_reference_bounds (r : Regs ℝ) (tf : Bool) (e lfo : ℝ) :
    0 < fltCutoff reference r tf e lfo ∧ fltCutoff reference r tf e lfo ≤ 7 / 16 * fsEff reference r := by
  have hfs := one_le_fsEff_reference r
  rw [fltCutoff, numClamp_reference, numMin_reference]
  norm_num [reference_constants, defaultConstants]
  linarith

theorem fltRes_reference_bounds (r : Regs ℝ) (tq : Bool) (lfo : ℝ) :
    1 / 2 ≤ fltRes reference r tq lfo ∧ fltRes reference r tq lfo ≤ 16 := by
  rw [fltRes, numClamp_reference]
  norm_num [reference_constants, defaultConstants]

/-- Settles O54: the clamped cutoff and resonance are in range, and TANPI is positive on (0, 1/2). -/
theorem filterCoefficientsAreInTheirDomain : Obligations.FilterCoefficientsAreInTheirDomain := by
  intro r tf tq e lfo ratio q g
  have hfs := one_le_fsEff_reference r
  have hfs0 : 0 < fsEff reference r := zero_lt_one.trans_le hfs
  obtain ⟨hfc0, hfc⟩ := fltCutoff_reference_bounds r tf e lfo
  obtain ⟨hq, hq16⟩ := fltRes_reference_bounds r tq lfo
  have hratio0 : 0 < ratio := div_pos hfc0 hfs0
  have hratio : ratio ≤ 7 / 16 := (div_le_iff₀ hfs0).2 hfc
  have hg : 0 < g := reference_tanpi_pos hratio0 (by linarith)
  have hq0 : 0 < q := by linarith [show 1 / 2 ≤ q from hq]
  have hdenom : 1 < 1 + 1 / q * g + g * g := by
    have h1 : 0 < 1 / q * g := by positivity
    have h2 : 0 < g * g := by positivity
    linarith
  exact ⟨hfs, hratio0, hratio, hq, hq16, hg, hdenom⟩

end Sys2Proof.Machine
end

section
/-! PROOFS. The encoding: the words of the table are read back as their commands, and every other word is rejected (R84 to R92). -/

namespace Sys2Proof

/-! ### The decoder on a word of a row, and on a word of none -/

/-- The first case of R90. -/
theorem decode_eq_illegalOp {w : Word} (h : ∀ o, opcodeByte o ≠ fieldOp w) : decode w = .error .illegalOp := by
  simp [decode, opcodeOf?_eq_none h]

/-- The other two cases of R90: the row of the word's OP decides. -/
theorem decode_of_opcodeByte {w : Word} {o : Opcode} (h : opcodeByte o = fieldOp w) :
    decode w =
      if w &&& formatMask (opcodeFormat o) = matchWord o then .ok (buildInstr o w) else .error .reservedField := by
  simp [decode, ← h]

/-- The OP bits are fixed in every format. -/
theorem fieldOp_and_formatMask (w : Word) (f : Format) : fieldOp (w &&& formatMask f) = fieldOp w := by
  have hmask : fieldOp (formatMask f) = BitVec.allOnes 8 := by cases f <;> decide
  calc fieldOp (w &&& formatMask f)
      = fieldOp w &&& fieldOp (formatMask f) := BitVec.extractLsb'_and
    _ = fieldOp w := by rw [hmask, BitVec.and_allOnes]

theorem fieldOp_matchWord (o : Opcode) : fieldOp (matchWord o) = opcodeByte o := by cases o <;> decide

/-- A word whose fixed bits match a row has that row's OP. -/
theorem opcodeByte_of_match {w : Word} {o : Opcode} (h : w &&& formatMask (opcodeFormat o) = matchWord o) :
    opcodeByte o = fieldOp w := by
  rw [← fieldOp_matchWord, ← h, fieldOp_and_formatMask]

/-- A word decodes exactly when its fixed bits match a row, and then to that row's command with its fields read. -/
theorem decode_eq_ok_iff {w : Word} {i : Instr} :
    decode w = .ok i ↔ ∃ o, w &&& formatMask (opcodeFormat o) = matchWord o ∧ buildInstr o w = i := by
  constructor
  · intro h
    rcases decode_cases w with ⟨-, hd⟩ | ⟨o, -, -, hd⟩ | ⟨o, -, hm, hd⟩ <;> rw [hd] at h
    · cases h
    · cases h
    · exact ⟨o, hm, Except.ok.inj h⟩
  · rintro ⟨o, hm, rfl⟩
    rw [decode_of_opcodeByte (opcodeByte_of_match hm), if_pos hm]

/-- Settles O6, by the row of the word's OP. -/
theorem decoderIsTotalAndExact : Obligations.DecoderIsTotalAndExact := fun w =>
  ⟨decode_eq_illegalOp, fun o ho =>
    ⟨fun hm => (decode_of_opcodeByte ho).trans (if_neg hm),
      fun hm => ⟨buildInstr o w, (decode_of_opcodeByte ho).trans (if_pos hm), opcodeOfInstr_buildInstr o w⟩⟩⟩

/-! ### The fields of a command's word -/

theorem toNat_matchWord (o : Opcode) : (matchWord o).toNat = (opcodeByte o).toNat * 2 ^ 24 := by cases o <;> decide

/-- An address put in place (R92) is read back (R87), in a word of any row. -/
theorem fieldAddr_matchWord_add (o : Opcode) {a : Nat} (h : a < 256) :
    fieldAddr (matchWord o + BitVec.ofNat 32 a <<< 16) = a := by
  have hop : (opcodeByte o).toNat < 256 := (opcodeByte o).isLt
  simp only [fieldAddr, BitVec.extractLsb'_toNat, BitVec.toNat_add, BitVec.toNat_shiftLeft, BitVec.toNat_ofNat,
    toNat_matchWord, Nat.shiftLeft_eq, Nat.shiftRight_eq_div_pow]
  omega

/-- The fields of a well-formed command's word are the command's. -/
theorem buildInstr_encode {i : Instr} (h : i.wf = true) : buildInstr (opcodeOfInstr i) (encode i) = i := by
  cases i with
  | wrr a => exact congrArg Instr.wrr (fieldAddr_matchWord_add .wrr (by simpa [Instr.wf] using h))
  | rdr a => exact congrArg Instr.rdr (fieldAddr_matchWord_add .rdr (by simpa [Instr.wf] using h))
  | oscStart k => cases k <;> rfl
  | oscUpd k tf tc => cases k <;> cases tf <;> cases tc <;> rfl
  | oscNext k => cases k <;> rfl
  | fltApply tf tq => cases tf <;> cases tq <;> rfl
  | _ => rfl

/-- The word of a well-formed command fits its row (R85). -/
theorem encode_match {i : Instr} (h : i.wf = true) :
    encode i &&& formatMask (opcodeFormat (opcodeOfInstr i)) = matchWord (opcodeOfInstr i) := by
  cases i with
  | nop => exact Laws.RowMatch.nop h
  | wrr a => exact Laws.RowMatch.wrr a h
  | rdr a => exact Laws.RowMatch.rdr a h
  | envOn => exact Laws.RowMatch.envOn h
  | envOff => exact Laws.RowMatch.envOff h
  | envNext => exact Laws.RowMatch.envNext h
  | envClosed => exact Laws.RowMatch.envClosed h
  | oscStart k => exact Laws.RowMatch.oscStart k h
  | oscUpd k tf tc => exact Laws.RowMatch.oscUpd k tf tc h
  | oscNext k => exact Laws.RowMatch.oscNext k h
  | noiseStart => exact Laws.RowMatch.noiseStart h
  | noiseStop => exact Laws.RowMatch.noiseStop h
  | noiseUpd => exact Laws.RowMatch.noiseUpd h
  | noiseNext => exact Laws.RowMatch.noiseNext h
  | lfoUpd => exact Laws.RowMatch.lfoUpd h
  | lfoNext => exact Laws.RowMatch.lfoNext h
  | lfoQry => exact Laws.RowMatch.lfoQry h
  | fltStart => exact Laws.RowMatch.fltStart h
  | fltStop => exact Laws.RowMatch.fltStop h
  | fltApply tf tq => exact Laws.RowMatch.fltApply tf tq h

theorem decode_encode {i : Instr} (h : i.wf = true) : decode (encode i) = .ok i :=
  decode_eq_ok_iff.2 ⟨opcodeOfInstr i, encode_match h, buildInstr_encode h⟩

/-- Settles O7: a well-formed command's word fits the command's row and carries its fields. -/
theorem decodeOfEncodeIsTheCommand : Obligations.DecodeOfEncodeIsTheCommand := fun _ => decode_encode

/-- Settles O4: each of the words is the encoding of its command. -/
theorem wordsDecodeToTheirCommands : Obligations.WordsDecodeToTheirCommands :=
  ⟨decode_encode (i := .nop) rfl, decode_encode (i := .wrr 0x2A) rfl, decode_encode (i := .rdr 0xB1) rfl,
    decode_encode (i := .envClosed) rfl, decode_encode (i := .oscStart .osc2) rfl,
    decode_encode (i := .oscUpd .osc2 true false) rfl, decode_encode (i := .oscUpd .osc1 false true) rfl,
    decode_encode (i := .noiseNext) rfl, decode_encode (i := .lfoQry) rfl,
    decode_encode (i := .fltApply true false) rfl, decode_encode (i := .fltApply false true) rfl⟩

/-! ### A word is its fixed bits and its fields -/

/-- The fields a format uses, read from a word and put in place (R84, R92). -/
def fieldBits (w : Word) : Format → Word
  | .fmtN => 0
  | .fmtR => BitVec.ofNat 32 (fieldAddr w) <<< 16
  | .fmtI => instBit (fieldInst w)
  | .fmtIF => instBit (fieldInst w) + flagBits (w.getLsbD 1) (w.getLsbD 0)
  | .fmtF => flagBits (w.getLsbD 1) (w.getLsbD 0)

/-- The word of a row's command is the row's match word with the fields added. -/
theorem encode_buildInstr (o : Opcode) (w : Word) :
    encode (buildInstr o w) = matchWord o + fieldBits w (opcodeFormat o) := by
  cases o with
  | oscUpd => exact BitVec.add_assoc _ _ _
  | _ => rfl

/-- Bits taken by two masks with no bit in common add up without a carry. -/
theorem and_add_and {m n : Word} (h : m &&& n = 0) (w : Word) : (w &&& m) + (w &&& n) = w &&& (m ||| n) := by
  have hdisjoint : (w &&& m) &&& (w &&& n) = 0#32 := by
    calc (w &&& m) &&& (w &&& n)
        = (w &&& w) &&& (m &&& n) := by ac_rfl
      _ = 0#32 := by simp [h]
  rw [BitVec.add_eq_or_of_and_eq_zero _ _ hdisjoint, BitVec.and_or_distrib_left]

/-- A field read from a word and put back in its place is the word under the field's mask. -/
theorem setWidth_extractLsb'_shiftLeft (w : Word) (start len : Nat) :
    (w.extractLsb' start len).setWidth 32 <<< start = w &&& (BitVec.allOnes len).setWidth 32 <<< start := by
  ext i hi
  by_cases hlow : i < start
  · simp [hlow]
  · simp [hlow, Nat.add_sub_of_le (Nat.le_of_not_lt hlow), BitVec.getLsbD_eq_getElem hi, Bool.and_comm]

theorem shiftLeft_fieldAddr (w : Word) : BitVec.ofNat 32 (fieldAddr w) <<< 16 = w &&& 0x00FF0000 := by
  rw [fieldAddr, BitVec.ofNat_toNat]
  exact setWidth_extractLsb'_shiftLeft w 16 8

theorem instBit_fieldInst (w : Word) : instBit (fieldInst w) = w &&& 0x100 := by
  rw [show (0x100 : Word) = BitVec.twoPow 32 8 from rfl, BitVec.and_twoPow, fieldInst]
  split <;> rfl

theorem flagBits_getLsbD (w : Word) : flagBits (w.getLsbD 1) (w.getLsbD 0) = w &&& 3 := by
  calc flagBits (w.getLsbD 1) (w.getLsbD 0)
      = (w &&& BitVec.twoPow 32 1) + (w &&& BitVec.twoPow 32 0) := by
        rw [BitVec.and_twoPow, BitVec.and_twoPow]; rfl
    _ = w &&& 3 := and_add_and (by decide) w

/-- The fields a format uses are the bits its mask leaves free. -/
theorem fieldBits_eq (w : Word) (f : Format) : fieldBits w f = w &&& ~~~ formatMask f := by
  cases f with
  | fmtN => exact (BitVec.and_zero (x := w)).symm
  | fmtR => exact shiftLeft_fieldAddr w
  | fmtI => exact instBit_fieldInst w
  | fmtIF =>
    rw [fieldBits, instBit_fieldInst, flagBits_getLsbD]
    exact and_add_and (by decide) w
  | fmtF => exact flagBits_getLsbD w

/-- A word is its fixed bits with the fields added. -/
theorem fixedBits_add_fieldBits (w : Word) (f : Format) : (w &&& formatMask f) + fieldBits w f = w := by
  rw [fieldBits_eq, and_add_and (BitVec.and_not_self _), BitVec.or_not_self, BitVec.and_allOnes]

/-- Settles O8: a word that fits a row is the row's match word and its fields, which is what its command encodes to. -/
theorem encodeOfDecodeIsTheWord : Obligations.EncodeOfDecodeIsTheWord := by
  intro w i h
  obtain ⟨o, hm, rfl⟩ := decode_eq_ok_iff.1 h
  exact ⟨buildInstr_wf o w, by rw [encode_buildInstr, ← hm, fixedBits_add_fieldBits]⟩

end Sys2Proof

namespace Sys2Proof.Machine

/-- A word that is no command is answered with the decoder's code, and the registers stay (R210). -/
theorem execWord_error {w : Word} {code : RejectCode} (h : decode w = .error code) (s : State) :
    execWord w s = .next { s with rsp := some ⟨true, rejectWord code⟩ } := by
  rw [execWord, h]
  exact complete_reject s code

/-- A presented word that is no command is answered with the decoder's code, and no register changes. -/
theorem step_reject {s : State} {c : Command} {rest : List PortEvent} {code : RejectCode}
    (hq : s.queue = .command c :: rest) (hd : decode c.word = .error code) :
    ∃ t, step s = .next t ∧ t.rsp = some ⟨true, rejectWord code⟩ ∧ t.regs = s.regs :=
  ⟨_, (step_command hq).trans (execWord_error hd _), rfl, rfl⟩

/-- Settles O5: the decoder gives the code, and the reject reports it. -/
theorem undecodableWordsAreRejected : Obligations.UndecodableWordsAreRejected := fun _ _ _ hq =>
  ⟨fun hop => step_reject hq (decode_eq_illegalOp hop),
    fun _ ho hm => step_reject hq ((decode_of_opcodeByte ho).trans (if_neg hm))⟩

end Sys2Proof.Machine
end

section
/-! PROOFS. The system commands: what NOP, WRR and RDR do, case by case (R100 to R102). -/

namespace Sys2Proof.Machine

/-! ### WRR and RDR on the port, in any configuration -/

section
variable {α : Type} (C : PortConfig α) {addr : Nat} {p : ParamReg} (a : BitVec C.numW) (r : Regs α)

theorem wrrCommand_none (h : regAt? addr = none) : wrrCommand C addr a r = reject .badAddr r := by
  rw [wrrCommand, h]

theorem wrrCommand_state {q : StateReg} (h : regAt? addr = some (.state q)) :
    wrrCommand C addr a r = reject .roWrite r := by
  rw [wrrCommand, h]

/-- WRR at a numeric register runs on its operand. -/
theorem wrrCommand_num (h : regAt? addr = some (.param p)) (hp : paramIsNum p = true) :
    wrrCommand C addr a r = withOperand C a r fun v => respond (writeNum r p v) 0 := by
  rw [wrrCommand, h]
  exact if_pos hp

/-- WRR at an integer register takes the raw word, which need not denote a number. -/
theorem wrrCommand_int (h : regAt? addr = some (.param p)) (hp : paramIsNum p = false) :
    wrrCommand C addr a r = respond (writeInt r p a) 0 := by
  rw [wrrCommand, h]
  exact if_neg (Bool.eq_false_iff.1 hp)

theorem rdrCommand_none (h : regAt? addr = none) : rdrCommand C addr r = reject .badAddr r := by
  rw [rdrCommand, h]

theorem rdrCommand_some {x : RegName} (h : regAt? addr = some x) :
    rdrCommand C addr r = respond r (encodeVal C (readReg r x)) := by
  rw [rdrCommand, h]

end

/-! ### The same on the machine -/

section
variable {s : State} {addr : Nat} {p : ParamReg}

theorem exec_wrr_none (h : regAt? addr = none) :
    exec (.wrr addr) s = .next { s with rsp := some ⟨true, rejectWord .badAddr⟩ } :=
  (congrArg (complete s) (wrrCommand_none s.port s.cmdA s.regs h)).trans (complete_reject s .badAddr)

theorem exec_wrr_state {q : StateReg} (h : regAt? addr = some (.state q)) :
    exec (.wrr addr) s = .next { s with rsp := some ⟨true, rejectWord .roWrite⟩ } :=
  (congrArg (complete s) (wrrCommand_state s.port s.cmdA s.regs h)).trans (complete_reject s .roWrite)

theorem exec_wrr_num (h : regAt? addr = some (.param p)) (hp : paramIsNum p = true) :
    exec (.wrr addr) s =
      complete s (withOperand s.port s.cmdA s.regs fun v => respond (writeNum s.regs p v) 0) :=
  congrArg (complete s) (wrrCommand_num s.port s.cmdA s.regs h hp)

theorem exec_wrr_int (h : regAt? addr = some (.param p)) (hp : paramIsNum p = false) :
    exec (.wrr addr) s = .next { s with regs := writeInt s.regs p s.cmdA, rsp := some ⟨false, 0⟩ } :=
  congrArg (complete s) (wrrCommand_int s.port s.cmdA s.regs h hp)

theorem exec_rdr_none (h : regAt? addr = none) :
    exec (.rdr addr) s = .next { s with rsp := some ⟨true, rejectWord .badAddr⟩ } :=
  (congrArg (complete s) (rdrCommand_none s.port s.regs h)).trans (complete_reject s .badAddr)

theorem exec_rdr_some {x : RegName} (h : regAt? addr = some x) :
    exec (.rdr addr) s = .next { s with rsp := some ⟨false, wordOfVal (readReg s.regs x)⟩ } :=
  (congrArg (complete s) (rdrCommand_some s.port s.regs h)).trans (complete_value s s.regs _)

theorem exec_rdr_num {x : RegName} {v : Num32} (h : regAt? addr = some x) (hv : readReg s.regs x = .num v) :
    exec (.rdr addr) s = .next { s with rsp := some ⟨false, wordOfNum v⟩ } := by
  rw [exec_rdr_some h, hv, wordOfVal_num]

theorem exec_rdr_int {x : RegName} {n : Word} (h : regAt? addr = some x) (hn : readReg s.regs x = .int n) :
    exec (.rdr addr) s = .next { s with rsp := some ⟨false, n⟩ } := by
  rw [exec_rdr_some h, hn, wordOfVal_int]

end

/-! ### The words of the two commands (R92) -/

theorem decode_encode_wrr {addr : Nat} (h : addr < 256) : decode (encode (.wrr addr)) = .ok (.wrr addr) :=
  decode_encode (by simpa [Instr.wf] using h)

theorem decode_encode_rdr {addr : Nat} (h : addr < 256) : decode (encode (.rdr addr)) = .ok (.rdr addr) :=
  decode_encode (by simpa [Instr.wf] using h)

/-! ### The obligations -/

/-- Settles O10: NOP responds with the registers it found, and its word is the encoding of NOP. -/
theorem nopOnlyResponds : Obligations.NopOnlyResponds :=
  ⟨fun s => complete_respond s s.regs 0, decode_encode (i := .nop) rfl⟩

/-- Settles O11, by what stands at the address, the register's type, and whether the operand is a number. -/
theorem wrrStoresOrRejects : Obligations.WrrStoresOrRejects := by
  intro addr s
  refine ⟨exec_wrr_none, fun q h => exec_wrr_state h, fun p h hp ha => ?_, fun p v h hp ha => ?_,
    fun p h hp => exec_wrr_int h hp, decode_encode_wrr⟩
  · exact (exec_wrr_num h hp).trans (complete_operand_none ha _)
  · exact (exec_wrr_num h hp).trans (complete_operand_some ha _)

/-- Settles O13: the answer is the register's value on the bus, for a stage register its code. -/
theorem rdrAnswersWithTheRegister : Obligations.RdrAnswersWithTheRegister := by
  intro addr s
  refine ⟨exec_rdr_none, fun x v h hv => exec_rdr_num h hv, fun x n h hn => exec_rdr_int h hn,
    ⟨?_, ?_, ?_⟩, decode_encode_rdr⟩
  · exact exec_rdr_int (regAt?_regAddr (.state .envAStage)) rfl
  · exact exec_rdr_int (regAt?_regAddr (.state .envNStage)) rfl
  · exact exec_rdr_int (regAt?_regAddr (.state .envFStage)) rfl

end Sys2Proof.Machine
end

section
/-! PROOFS. The envelope generator: the stage table of its step, the four commands on ENV_A, and the release ramp (R111 to R120). -/

namespace Sys2Proof.Machine

/-! ### The step, stage by stage (R112) -/

section
variable {α : Type} (C : Config α) (t l r0 dt : α) (p : Adsr α)

theorem envNext_idle : envNext C ⟨.idle, t, l, r0⟩ p dt = ⟨.idle, t, C.zero, r0⟩ := rfl

theorem envNext_attack : envNext C ⟨.attack, t, l, r0⟩ p dt =
    if C.le (flooredTime C p.attack) (C.add t dt) = true then ⟨.decay, C.zero, C.one, r0⟩
    else ⟨.attack, C.add t dt, C.div (C.add t dt) (flooredTime C p.attack), r0⟩ := rfl

theorem envNext_decay : envNext C ⟨.decay, t, l, r0⟩ p dt =
    if C.le (flooredTime C p.decay) (C.add t dt) = true then ⟨.sustain, C.zero, p.sustain, r0⟩
    else ⟨.decay, C.add t dt,
      C.sub C.one (C.mul (C.sub C.one p.sustain) (C.div (C.add t dt) (flooredTime C p.decay))), r0⟩ := rfl

theorem envNext_sustain : envNext C ⟨.sustain, t, l, r0⟩ p dt = ⟨.sustain, t, p.sustain, r0⟩ := rfl

theorem envNext_release : envNext C ⟨.release, t, l, r0⟩ p dt =
    if C.le (flooredTime C p.release) (C.add t dt) = true then ⟨.idle, C.zero, C.zero, r0⟩
    else ⟨.release, C.add t dt, C.mul r0 (C.sub C.one (C.div (C.add t dt) (flooredTime C p.release))), r0⟩ := rfl

end

/-! ### The release ramp in exact arithmetic (R120 c) -/

theorem flooredTime_reference (x : ℝ) : flooredTime reference x = max x (1 / 2 ^ 20) := by
  rw [flooredTime, numMax_reference, reference_constants]
  norm_num [defaultConstants]

section
variable (e : Env ℝ) (p : Adsr ℝ) {t l r0 dt : ℝ}

theorem envNext_release_reference_of_le (h : flooredTime reference p.release ≤ t + dt) :
    envNext reference ⟨.release, t, l, r0⟩ p dt = ⟨.idle, 0, 0, r0⟩ :=
  (envNext_release reference t l r0 dt p).trans (if_pos (decide_eq_true h))

theorem envNext_release_reference_of_lt (h : t + dt < flooredTime reference p.release) :
    envNext reference ⟨.release, t, l, r0⟩ p dt =
      ⟨.release, t + dt, r0 * (1 - (t + dt) / flooredTime reference p.release), r0⟩ := by
  rw [envNext_release, if_neg (by simpa using h), reference_div _ (flooredTime_reference_pos _)]
  rfl

/-- Until the release time is reached, the time is the number of steps and the level is linear in it. -/
theorem envAfter_envOff_of_lt (hdt : 0 ≤ dt) (n : Nat) (h : n * dt < flooredTime reference p.release) :
    envAfter reference p dt n (envOff reference e) =
      ⟨.release, n * dt, e.level * (1 - n * dt / flooredTime reference p.release), e.level⟩ := by
  induction n with
  | zero => simp [envAfter, envOff]
  | succ n ih =>
    have hsucc : ((n + 1 : ℕ) : ℝ) * dt = n * dt + dt := by push_cast; ring
    rw [hsucc] at h ⊢
    rw [envAfter, ih (by linarith), envNext_release_reference_of_lt p h]

/-- The step that reaches the release time ends the ramp. -/
theorem envAfter_envOff_of_le (hdt : 0 ≤ dt) (n : Nat) (h : n * dt < flooredTime reference p.release)
    (hend : flooredTime reference p.release ≤ (n + 1 : ℕ) * dt) :
    envAfter reference p dt (n + 1) (envOff reference e) = ⟨.idle, 0, 0, e.level⟩ := by
  rw [envAfter, envAfter_envOff_of_lt e p hdt n h, envNext_release_reference_of_le p]
  calc flooredTime reference p.release ≤ (n + 1 : ℕ) * dt := hend
    _ = n * dt + dt := by push_cast; ring

end

/-! ### The commands on ENV_A -/

/-- `closed` in binary32 (R119). -/
theorem closed_binary32_iff (n : Nat) (e : Env Num32) : closed (binary32 n) e = true ↔
    (e.stage = .release ∨ e.stage = .idle) ∧ e.level.units < (lit32 1 (10 ^ 6)).units := by
  simp [closed, defaultConstants]

section
variable (s : State)

theorem exec_envOn : exec .envOn s =
    .next { s with regs := { s.regs with envA := envOn s.config }, rsp := some ⟨false, 0⟩ } :=
  complete_answer s (envOnRegs s.config s.regs)

theorem exec_envOff : exec .envOff s =
    .next { s with regs := { s.regs with envA := envOff s.config s.regs.envA }, rsp := some ⟨false, 0⟩ } :=
  complete_answer s (envOffRegs s.config s.regs)

theorem exec_envNext : exec .envNext s =
    .next { s with
      regs := (envNextRegs s.config s.regs).1
      rsp := some ⟨false, wordOfNum (envNextRegs s.config s.regs).1.envA.level⟩ } :=
  complete_answer s (envNextRegs s.config s.regs)

theorem exec_envClosed : exec .envClosed s =
    .next { s with rsp := some ⟨false, if closed s.config s.regs.envA = true then 1 else 0⟩ } := by
  rw [← wordOfVal_int (if closed s.config s.regs.envA = true then 1 else 0)]
  exact complete_answer s (envClosedRegs s.config s.regs)

end

/-! ### The obligations -/

/-- Settles O52: the ramp by induction on the steps, and its end by one step more. -/
theorem releaseEndsInTheReleaseTime : Obligations.ReleaseEndsInTheReleaseTime := by
  intro e p dt n hdt hn
  obtain ⟨m, rfl⟩ : ∃ m, n = m + 1 := ⟨n - 1, by omega⟩
  rw [← flooredTime_reference]
  exact ⟨envAfter_envOff_of_lt e p hdt.le (m + 1), envAfter_envOff_of_le e p hdt.le m⟩

/-- Settles O14: the two functions are the records of R111 and R113, and the commands write them to ENV_A. -/
theorem envOnAttacksAndEnvOffReleases : Obligations.EnvOnAttacksAndEnvOffReleases :=
  ⟨fun _ _ _ => ⟨rfl, rfl⟩, fun s => ⟨exec_envOn s, exec_envOff s⟩,
    decode_encode (i := .envOn) rfl, decode_encode (i := .envOff) rfl⟩

/-- Settles O15, a stage at a time. -/
theorem envelopeStepFollowsTheStageTable : Obligations.EnvelopeStepFollowsTheStageTable :=
  fun _ C t l r0 dt p =>
    ⟨envNext_idle C t l r0 dt p, envNext_attack C t l r0 dt p, envNext_decay C t l r0 dt p,
      envNext_sustain C t l r0 dt p, envNext_release C t l r0 dt p⟩

/-- Settles O16: the command writes the stepped envelope and answers with its level. -/
theorem envNextStepsEnvA : Obligations.EnvNextStepsEnvA :=
  ⟨exec_envNext, decode_encode (i := .envNext) rfl⟩

/-- Settles O17: the command answers with the predicate, whose threshold is evaluated to its word. -/
theorem envClosedAnswersTheClosedPredicate : Obligations.EnvClosedAnswersTheClosedPredicate := by
  refine ⟨closed_binary32_iff, by decide +kernel, fun s => ?_, decode_encode (i := .envClosed) rfl⟩
  rw [exec_envClosed]
  simp only [State.config, closed_binary32_iff]

end Sys2Proof.Machine
end

section
/-! PROOFS. The oscillators: the three commands, the waveforms, and their bounds in exact arithmetic (R130 to R142). -/

namespace Sys2Proof.Machine

/-! ### The bound of the waveforms in exact arithmetic (R142) -/

section
variable (p inc drive : ℝ)

theorem abs_triangle_reference_le_one (h0 : 0 ≤ p) (h1 : p < 1) : |triangle reference p| ≤ 1 := by
  rw [abs_le]
  unfold triangle
  split_ifs with hrise hfall <;> norm_num at *
  · constructor <;> linarith
  · constructor <;> linarith
  · constructor <;> linarith

theorem abs_square_reference_le_one : |square reference p| ≤ 1 := by
  unfold square
  split <;> norm_num

theorem risingSaw_reference : risingSaw reference p = 2 * p - 1 := by norm_num [risingSaw]

theorem abs_risingSaw_reference_le_one (h0 : 0 ≤ p) (h1 : p < 1) : |risingSaw reference p| ≤ 1 := by
  rw [risingSaw_reference, abs_le]
  constructor <;> linarith

theorem abs_pushWave_reference_le_one : |pushWave reference p drive| ≤ 1 := (Real.abs_tanh_lt_one _).le

/-- What the correction of R140 can be: the parabola within one increment of the wrap on either side, else 0. -/
theorem sawCorrection_reference_cases :
    (0 < inc ∧ inc < 1 / 2 ∧ p < inc ∧ sawCorrection reference p inc = p / inc + p / inc - p / inc * (p / inc) - 1) ∨
    (0 < inc ∧ inc < 1 / 2 ∧ 1 - inc < p ∧ sawCorrection reference p inc =
      (p - 1) / inc * ((p - 1) / inc) + ((p - 1) / inc + (p - 1) / inc) + 1) ∨
    sawCorrection reference p inc = 0 := by
  unfold sawCorrection
  split_ifs with hinc hlo hhi
  · obtain ⟨hpos, hhalf⟩ : 0 < inc ∧ inc < 1 / 2 := by simpa using hinc
    exact .inl ⟨hpos, hhalf, by simpa using hlo, by simp [reference_div _ hpos]⟩
  · obtain ⟨hpos, hhalf⟩ : 0 < inc ∧ inc < 1 / 2 := by simpa using hinc
    exact .inr (.inl ⟨hpos, hhalf, by simpa using hhi, by simp [reference_div _ hpos]⟩)
  · exact .inr (.inr rfl)
  · exact .inr (.inr rfl)

/-- The corrected sawtooth at the part `x` of an increment `d` after the wrap. -/
theorem abs_correctedSaw_le_one {x d : ℝ} (hx0 : 0 ≤ x) (hx1 : x ≤ 1) (hd0 : 0 ≤ d) (hd1 : d ≤ 1 / 2) :
    |x * x - 2 * (x * (1 - d))| ≤ 1 := by
  rw [abs_le]
  constructor <;> nlinarith [sq_nonneg (x - 1), mul_nonneg hx0 hd0]

/-- After the wrap the wave is that parabola, before it the parabola mirrored. -/
theorem abs_smoothSaw_reference_le_one (h0 : 0 ≤ p) (h1 : p < 1) : |smoothSaw reference p inc| ≤ 1 := by
  rw [smoothSaw, reference_sub]
  rcases sawCorrection_reference_cases p inc with ⟨hpos, hhalf, hp, hc⟩ | ⟨hpos, hhalf, hp, hc⟩ | hc <;> rw [hc]
  · have hx : p / inc * inc = p := div_mul_cancel₀ p hpos.ne'
    convert abs_correctedSaw_le_one (div_nonneg h0 hpos.le) ((div_le_one hpos).2 hp.le) hpos.le hhalf.le using 2
    rw [risingSaw_reference]
    linear_combination -2 * hx
  · have hx : (1 - p) / inc * inc = 1 - p := div_mul_cancel₀ _ hpos.ne'
    have hx1 : (1 - p) / inc ≤ 1 := (div_le_one hpos).2 (by linarith)
    rw [risingSaw_reference, ← neg_sub 1 p, neg_div, ← abs_neg]
    convert abs_correctedSaw_le_one (div_nonneg (sub_nonneg.2 h1.le) hpos.le) hx1 hpos.le hhalf.le using 2
    linear_combination -2 * hx
  · rw [sub_zero]
    exact abs_risingSaw_reference_le_one p h0 h1

end

theorem abs_wave_reference_le_one (sel : BitVec 3) {p : ℝ} (inc drive : ℝ) (h0 : 0 ≤ p) (h1 : p < 1) :
    |wave reference sel p inc drive| ≤ 1 := by
  unfold wave
  split
  · exact Real.abs_sin_le_one _
  · exact abs_triangle_reference_le_one p h0 h1
  · exact abs_square_reference_le_one p
  · exact abs_risingSaw_reference_le_one p h0 h1
  · exact abs_pushWave_reference_le_one p drive
  · exact abs_smoothSaw_reference_le_one p inc h0 h1
  · exact abs_zero.trans_le zero_le_one

theorem phaseOk_numFrac_reference (x : ℝ) : phaseOk reference (numFrac reference x) = true :=
  (phaseOk_reference _).2 ⟨Int.fract_nonneg x, Int.fract_lt_one x⟩

/-- Settles O50: the bound selector by selector, at the wrapped phase of OSC.NEXT, times the gain. -/
theorem referenceWavesAreBounded : Obligations.ReferenceWavesAreBounded := by
  refine ⟨fun sel p inc drive h0 h1 _ => abs_wave_reference_le_one sel inc drive h0 h1, fun k r v _ hgain hv => ?_,
    fun k r f => ⟨?_, ?_⟩⟩
  · obtain rfl := RegVal.num.inj hv
    rw [reference_mul, abs_mul, abs_of_nonneg hgain]
    exact mul_le_of_le_one_left hgain
      (abs_wave_reference_le_one _ _ _ (Int.fract_nonneg _) (Int.fract_lt_one _))
  · rw [oscNextRegs, oscRegs_setOscRegs]
    exact phaseOk_numFrac_reference _
  · rw [oscStartRegs, oscRegs_setOscRegs]
    exact rangeLaws_reference.phase0

/-! ### The commands on the machine -/

theorem instBit_eq (k : OscId) : instBit k = if k = .osc2 then 0x100 else 0 := by cases k <;> rfl

section
variable {s : State} {a : Num32} (k : OscId)

theorem exec_oscStart_none (h : numOfWord s.cmdA = none) :
    exec (.oscStart k) s = .next { s with rsp := some ⟨true, 5⟩ } := complete_operand_none h _

theorem exec_oscStart_some (h : numOfWord s.cmdA = some a) :
    exec (.oscStart k) s = .next { s with regs := (oscStartRegs s.config k a s.regs).1, rsp := some ⟨false, 0⟩ } :=
  (complete_operand_some h _).trans (complete_answer s (oscStartRegs s.config k a s.regs))

theorem exec_oscUpd_none (tf tc : Bool) (h : numOfWord s.cmdA = none) :
    exec (.oscUpd k tf tc) s = .next { s with rsp := some ⟨true, 5⟩ } := complete_operand_none h _

theorem exec_oscUpd_some (tf tc : Bool) (h : numOfWord s.cmdA = some a) :
    exec (.oscUpd k tf tc) s =
      .next { s with regs := (oscUpdRegs s.config k tf tc a s.regs).1, rsp := some ⟨false, 0⟩ } :=
  (complete_operand_some h _).trans (complete_answer s (oscUpdRegs s.config k tf tc a s.regs))

end

theorem exec_oscNext (k : OscId) (s : State) :
    exec (.oscNext k) s = .next { s with
      regs := (oscNextRegs s.config k s.regs).1
      rsp := some ⟨false, wordOfVal (oscNextRegs s.config k s.regs).2⟩ } :=
  complete_answer s (oscNextRegs s.config k s.regs)

/-- PHASE0 is 0 (R6). -/
theorem phase0_binary32 (n : Nat) : (binary32 n).phase0 = ⟨0⟩ := lit32_whole (k := 0) (by decide)

/-- Settles O18: the command writes the operand and PHASE0 over base and phase of its oscillator. -/
theorem oscStartSetsBaseAndPhase : Obligations.OscStartSetsBaseAndPhase := by
  intro k s
  refine ⟨exec_oscStart_none k, fun a h => ?_, ?_⟩
  · rw [exec_oscStart_some k h, oscStartRegs, State.config, phase0_binary32]
  · rw [← instBit_eq]
    exact decode_encode (i := .oscStart k) rfl

/-- Settles O19: the rule's frequency and FS_EFF are those of the command, written out; only the words need an argument. -/
theorem oscUpdLatchesTheIncrement : Obligations.OscUpdLatchesTheIncrement := by
  intro k tf tc s
  refine ⟨exec_oscUpd_none k tf tc, fun a h => exec_oscUpd_some k tf tc h, ?_⟩
  rw [← instBit_eq, BitVec.add_assoc]
  exact decode_encode (i := .oscUpd k tf tc) rfl

/-- Settles O20: the command's wrapped phase and sample are those of the rule, written out. -/
theorem oscNextAdvancesAndEvaluates : Obligations.OscNextAdvancesAndEvaluates := by
  intro k s
  refine ⟨exec_oscNext k s, ?_⟩
  rw [← instBit_eq]
  exact decode_encode (i := .oscNext k) rfl

/-- Settles O21: the selectors compute to their formulas; of the sawtooth's correction the two conditions on the increment are
joined as Booleans. -/
theorem waveformsFollowTheirFormulas : Obligations.WaveformsFollowTheirFormulas := by
  intro α C p inc drive
  refine ⟨rfl, rfl, rfl, rfl, rfl, ?_, rfl, rfl⟩
  simp only [← Bool.and_eq_true]
  rfl

/-- Settles O57: each command goes through `oscRegs`, `oscParams` and `setOscRegs` at its own oscillator alone, so on either
side it computes to the same registers and value. -/
theorem oscillatorsShareNoState : Obligations.OscillatorsShareNoState := by
  intro α C i o r x q
  constructor <;> rintro (rfl | ⟨tf, tc, rfl⟩ | rfl) <;> exact ⟨rfl, rfl⟩

end Sys2Proof.Machine
end

section
/-! PROOFS. The noise generator: its random source, its four commands, and its bounds in exact arithmetic (R150 to R156). -/

namespace Sys2Proof.Machine

/-! ### The random source (R154) -/

theorem xor_shiftLeft_xor (x y : BitVec 32) (n : Nat) :
    (x ^^^ y) ^^^ (x ^^^ y) <<< n = (x ^^^ x <<< n) ^^^ (y ^^^ y <<< n) := by
  rw [BitVec.shiftLeft_xor_distrib]
  ac_rfl

theorem xor_ushiftRight_xor (x y : BitVec 32) (n : Nat) :
    (x ^^^ y) ^^^ (x ^^^ y) >>> n = (x ^^^ x >>> n) ^^^ (y ^^^ y >>> n) := by
  rw [BitVec.ushiftRight_xor_distrib]
  ac_rfl

/-- The step is linear over exclusive or, as each of its three lines is. -/
theorem rngStep_xor (x y : BitVec 32) : rngStep (x ^^^ y) = rngStep x ^^^ rngStep y := by
  dsimp only [rngStep]
  rw [xor_shiftLeft_xor x y 13, xor_ushiftRight_xor _ _ 17, xor_shiftLeft_xor _ _ 5]

/-- A linear map that is 0 at 0 alone is one to one. -/
theorem rngStep_injective : Function.Injective rngStep := by
  intro x y h
  have h0 : rngStep (x ^^^ y) = 0 := by rw [rngStep_xor, h, BitVec.xor_self]; rfl
  exact BitVec.xor_eq_zero_iff.1 (not_imp_not.1 rngStep_ne_zero h0)

/-- Settles O26: there are finitely many words, so the injective step is surjective too. -/
theorem randomStepIsOneToOne : Obligations.RandomStepIsOneToOne :=
  ⟨fun _ _ h => rngStep_injective h, Finite.surjective_of_injective rngStep_injective⟩

/-- A literal that is a binary32 number is not rounded. -/
theorem numVal_lit32_of_isBinary32 {k : Int} {d : Nat} {z : Num32} (hd : 0 < d) (hb : |(k : ℚ) / d| < overflowBound)
    (hz : isBinary32 z = true) (hv : numVal z = k / d) : numVal (lit32 k d) = k / d := by
  obtain ⟨hnear, -⟩ := (nearestEven_lit32 hd hb).2 z hz
  rw [hv, sub_self, abs_zero] at hnear
  exact (sub_eq_zero.1 (abs_nonpos_iff.1 hnear)).symm

/-- A multiple of 2^-23 in [-1, 1] is a binary32 number. -/
theorem isBinary32_mul_pow126 {k : Int} (h : k.natAbs ≤ 2 ^ 23) : isBinary32 ⟨k * 2 ^ 126⟩ = true := by
  have habs : (k * 2 ^ 126 : Int).natAbs = k.natAbs * 2 ^ 126 := Int.natAbs_mul _ _
  rw [isBinary32_iff, habs]
  exact ⟨sigBits_mul_pow _ (by omega), (Nat.mul_le_mul_right _ h).trans (by decide)⟩

theorem numVal_lit32_pow23 {k : Int} (h : k.natAbs ≤ 2 ^ 23) : numVal (lit32 k (2 ^ 23)) = k / 2 ^ 23 := by
  have hk : |(k : ℚ)| ≤ 2 ^ 23 := by rw [← Int.cast_abs, Int.abs_eq_natAbs]; exact_mod_cast h
  have hb : |(k : ℚ) / (2 ^ 23 : Nat)| < overflowBound := by
    rw [abs_div, div_lt_iff₀ (by norm_num)]
    exact hk.trans_lt (by norm_num [overflowBound])
  have hz : numVal ⟨k * 2 ^ 126⟩ = k / (2 ^ 23 : Nat) := by
    rw [numVal]
    push_cast
    ring
  rw [numVal_lit32_of_isBinary32 (by decide) hb (isBinary32_mul_pow126 h) hz, Nat.cast_pow, Nat.cast_ofNat]

/-- The upper 24 bits of a word, as the rule counts them. -/
theorem toNat_ushiftRight_8 (x : BitVec 32) : (x >>> 8).toNat = x.toNat / 256 := by
  rw [BitVec.toNat_ushiftRight, Nat.shiftRight_eq_div_pow]

/-- A draw is exact in binary32 (R154). -/
theorem numVal_rngValue (n : Nat) (x : BitVec 32) :
    numVal (rngValue (binary32 n) x) = (((x.toNat / 256 : Nat) : ℚ) - 2 ^ 23) / 2 ^ 23 := by
  have hx := x.isLt
  rw [rngValue, binary32_lit, numVal_lit32_pow23 (by rw [toNat_ushiftRight_8]; omega), toNat_ushiftRight_8]
  push_cast
  rfl

/-- Settles O25: the step is its definition, a draw is a literal that is not rounded, and the listed values are computed. -/
theorem randomSourceStepsAndScales : Obligations.RandomSourceStepsAndScales :=
  ⟨fun _ => rfl, fun n x => ⟨numVal_rngValue n x, isBinary32_lit32 _ _⟩, rfl, rfl, fun _ => rngStep_ne_zero,
    by decide⟩

/-! ### Bounds in exact arithmetic (R156) -/

theorem rngValue_reference_lt_one (x : BitVec 32) : rngValue reference x < 1 := by
  have hlt : (x >>> 8).toNat < 2 ^ 24 := by
    rw [toNat_ushiftRight_8]
    omega
  have hlt' : ((x >>> 8).toNat : ℝ) < 2 ^ 24 := by exact_mod_cast hlt
  rw [rngValue, reference_lit, div_lt_one (by positivity)]
  push_cast
  linarith

theorem nominalParams_noiseGain {p : ParamRegs ℝ} (h : nominalParams reference p = true) : 0 ≤ p.noise.gain := by
  simp only [nominalParams, nominalNoise, Bool.and_eq_true] at h
  obtain ⟨⟨⟨-, -, hgain⟩, -⟩, -⟩ := h
  exact ((unitRange_reference _).1 hgain).1

/-- NOISE.NEXT keeps the invariant of R34, so these ranges hold after it. -/
theorem noiseNext_reference_ranges {r : Regs ℝ} (hp : nominalParams reference r.par = true)
    (h : coreInv reference r = true) :
    |(noiseNextRegs reference r).1.noise.lp| ≤ 1 ∧ 0 ≤ (noiseNextRegs reference r).1.envN.level ∧
      (noiseNextRegs reference r).1.envN.level ≤ 1 := by
  have h' := coreInv_apply hp h .noiseNext ⟨0, 0, 0⟩
  simp only [coreInv, Bool.and_eq_true, levelInv_iff, noiseInv_iff] at h'
  obtain ⟨⟨-, hlev⟩, hlp, -⟩ := h'
  exact ⟨abs_le.2 ((bipolar_reference _).1 hlp), (unitRange_reference _).1 ((envLevels_iff _).1 hlev.envN).1⟩

theorem noiseNextRegs_disabled {α : Type} (C : Config α) {r : Regs α} (h : r.par.noise.en = 0) :
    noiseNextRegs C r = (r, .num C.zero) := if_pos h

/-- Enabled, the sample is that of the registers it leaves. -/
theorem noiseNextRegs_enabled_sample {α : Type} (C : Config α) {r : Regs α} (h : r.par.noise.en ≠ 0) :
    (noiseNextRegs C r).2 = .num (C.mul
      (C.mul (noiseNextRegs C r).1.noise.lp (noiseNextRegs C r).1.envN.level) r.par.noise.gain) := by
  rw [noiseNextRegs, if_neg h]

/-- Settles O51: enabled, the sample is a filter state in [-1, 1] times a level in [0, 1] times the gain. -/
theorem referenceNoiseIsBounded : Obligations.ReferenceNoiseIsBounded := by
  refine ⟨fun x => ⟨(rngValue_reference_bounds x).1, rngValue_reference_lt_one x⟩, fun r v hp hinv hv => ?_⟩
  have hgain := nominalParams_noiseGain hp
  obtain ⟨hlp, hlev0, hlev1⟩ := noiseNext_reference_ranges hp hinv
  by_cases hen : r.par.noise.en = 0
  · obtain rfl : 0 = v := RegVal.num.inj ((congrArg Prod.snd (noiseNextRegs_disabled reference hen)).symm.trans hv)
    exact ⟨abs_zero.trans_le hgain, hlp, fun _ => rfl⟩
  · obtain rfl := RegVal.num.inj ((noiseNextRegs_enabled_sample reference hen).symm.trans hv)
    refine ⟨?_, hlp, fun h => absurd h hen⟩
    rw [reference_mul, reference_mul, abs_mul, abs_mul, abs_of_nonneg hgain, abs_of_nonneg hlev0]
    exact mul_le_of_le_one_left hgain (mul_le_one₀ hlp hlev0 hlev1)

/-! ### The commands on the machine -/

section
variable (s : State)

theorem exec_noiseStart : exec .noiseStart s =
    .next { s with regs := (noiseStartRegs s.config s.regs).1, rsp := some ⟨false, 0⟩ } :=
  complete_answer s (noiseStartRegs s.config s.regs)

theorem exec_noiseStop : exec .noiseStop s =
    .next { s with regs := (noiseStopRegs s.config s.regs).1, rsp := some ⟨false, 0⟩ } :=
  complete_answer s (noiseStopRegs s.config s.regs)

theorem exec_noiseUpd : exec .noiseUpd s =
    .next { s with regs := (noiseUpdRegs s.config s.regs).1, rsp := some ⟨false, 0⟩ } :=
  complete_answer s (noiseUpdRegs s.config s.regs)

theorem exec_noiseNext : exec .noiseNext s = .next { s with
    regs := (noiseNextRegs s.config s.regs).1
    rsp := some ⟨false, wordOfVal (noiseNextRegs s.config s.regs).2⟩ } :=
  complete_answer s (noiseNextRegs s.config s.regs)

end

/-- Settles O22: the two commands write the records of R151 and R152. -/
theorem noiseStartAndNoiseStop : Obligations.NoiseStartAndNoiseStop :=
  fun s => ⟨exec_noiseStart s, exec_noiseStop s,
    decode_encode (i := .noiseStart) rfl, decode_encode (i := .noiseStop) rfl⟩

/-- What NOISE.UPD leaves in binary32, with the decay limit compared in units (R153). -/
theorem noiseUpdRegs_binary32 (n : Nat) (r : Regs Num32) : (noiseUpdRegs (binary32 n) r).1 = { r with
    noise := { r.noise with
      a := (binary32 n).div (noiseOmega (binary32 n) r) ((binary32 n).add ⟨2 ^ 149⟩ (noiseOmega (binary32 n) r))
      dec := if (lit32 4 1).units ≤ r.par.noise.dur.units then lit32 (2 ^ 20) 1 else r.par.noise.dur
      dt := (binary32 n).div ⟨2 ^ 149⟩ (fsEff (binary32 n) r) } } := by
  simp only [noiseUpdRegs, binary32_one, binary32_le, binary32_constants, defaultConstants, decide_eq_true_eq]

/-- TWO_PI is the word of R16. -/
theorem wordOfNum_twoPi (n : Nat) : wordOfNum (binary32 n).twoPi = 0x40C90FDB :=
  (by decide +kernel : wordOfNum ⟨0xC90FDB * 2 ^ 128⟩ = 0x40C90FDB)

/-- Settles O23: the `w` and FS_EFF of the command are those of the rule, written out. -/
theorem noiseUpdLatchesItsValues : Obligations.NoiseUpdLatchesItsValues := by
  intro s
  refine ⟨?_, wordOfNum_twoPi _, decode_encode (i := .noiseUpd) rfl⟩
  rw [exec_noiseUpd, State.config, noiseUpdRegs_binary32]
  rfl

/-- Settles O24, by the two values of N_EN. -/
theorem noiseNextDrawsFiltersAndGates : Obligations.NoiseNextDrawsFiltersAndGates := by
  intro s
  refine ⟨fun h => ?_, fun h => ?_, decode_encode (i := .noiseNext) rfl⟩
  · rw [exec_noiseNext, noiseNextRegs_disabled _ h]
    rfl
  · rw [exec_noiseNext, noiseNextRegs, if_neg (by rw [h]; decide)]
    rfl

end Sys2Proof.Machine
end

section
/-! PROOFS. The LFO: its three commands, and the bits of the router (R170 to R177). -/

namespace Sys2Proof.Machine

/-! ### The commands on the machine -/

section
variable (s : State)

theorem exec_lfoUpd : exec .lfoUpd s =
    .next { s with regs := (lfoUpdRegs s.config s.regs).1, rsp := some ⟨false, 0⟩ } :=
  complete_answer s (lfoUpdRegs s.config s.regs)

theorem exec_lfoNext : exec .lfoNext s = .next { s with
    regs := (lfoNextRegs s.config s.regs).1
    rsp := some ⟨false, wordOfVal (lfoNextRegs s.config s.regs).2⟩ } :=
  complete_answer s (lfoNextRegs s.config s.regs)

theorem exec_lfoQry : exec .lfoQry s = .next { s with
    rsp := some ⟨false, (routerBits s.regs.par.lfo.en s.regs.par.lfo.target).setWidth 32⟩ } :=
  complete_answer s (lfoQryRegs s.regs)

end

/-- Settles O27: the clamped frequency and FS_EFF are those of the command, written out. -/
theorem lfoUpdLatchesTheIncrement : Obligations.LfoUpdLatchesTheIncrement :=
  ⟨decode_encode (i := .lfoUpd) rfl, exec_lfoUpd⟩

/-- Settles O28: the wrapped phase and the waveforms are those of the command, written out. -/
theorem lfoNextAdvancesAndEvaluates : Obligations.LfoNextAdvancesAndEvaluates :=
  ⟨decode_encode (i := .lfoNext) rfl, exec_lfoNext⟩

/-! ### The router's bits (R176, R177) -/

section
variable (en : BitVec 1) (t : BitVec 4)

theorem routerBit_of_ge {i : Nat} (h : 10 ≤ i) : routerBit en t i = false := by
  obtain ⟨j, rfl⟩ := Nat.exists_eq_add_of_le' h
  exact Bool.and_false _

/-- The table of R176: the target is the bit's own index or, for bits 0 to 3, the combined index of its kind. -/
theorem routerBit_iff (i : Nat) :
    routerBit en t i = true ↔ en = 1 ∧ i < 10 ∧ (t.toNat = i ∨ i < 4 ∧ t.toNat = 4 + i % 2) := by
  rcases Nat.lt_or_ge i 10 with hi | hi
  · interval_cases i <;> simp [routerBit, ← BitVec.toNat_inj]
  · simp [routerBit_of_ge en t hi, hi.not_gt]

/-- The fold puts each of the ten bits at its place: evaluated for the two enables and sixteen targets. -/
theorem getLsbD_routerBits_fin :
    ∀ (en : BitVec 1) (t : BitVec 4) (i : Fin 10), (routerBits en t).getLsbD i = routerBit en t i := by
  decide

theorem getLsbD_routerBits (i : Nat) : (routerBits en t).getLsbD i = routerBit en t i := by
  rcases Nat.lt_or_ge i 10 with hi | hi
  · exact getLsbD_routerBits_fin en t ⟨i, hi⟩
  · rw [BitVec.getLsbD_of_ge _ _ hi, routerBit_of_ge en t hi]

/-- On the response bus the bits keep their places. -/
theorem getLsbD_setWidth_routerBits (i : Nat) : ((routerBits en t).setWidth 32).getLsbD i = routerBit en t i := by
  rw [BitVec.getLsbD_setWidth, getLsbD_routerBits, Bool.and_eq_right_iff_imp, routerBit_iff, decide_eq_true_eq]
  rintro ⟨-, hi, -⟩
  omega

/-- Of the targets only 4 and 5 are combined. -/
theorem toNat_eq_of_routerBit {en : BitVec 1} {t : BitVec 4} {i : Nat} (h4 : t ≠ 4) (h5 : t ≠ 5)
    (h : routerBit en t i = true) : t.toNat = i := by
  have h4' : t.toNat ≠ 4 := fun e => h4 (BitVec.eq_of_toNat_eq e)
  have h5' : t.toNat ≠ 5 := fun e => h5 (BitVec.eq_of_toNat_eq e)
  obtain ⟨-, -, h | ⟨-, h⟩⟩ := (routerBit_iff en t i).1 h
  · exact h
  · omega

end

/-- Settles O29: the response carries the ten bits, and each of them follows the table. -/
theorem lfoQryAnswersTheRouterBits : Obligations.LfoQryAnswersTheRouterBits := by
  refine ⟨decode_encode (i := .lfoQry) rfl, fun s => ⟨_, exec_lfoQry s, ?_⟩⟩
  simp only [getLsbD_setWidth_routerBits, routerBit_iff]
  refine ⟨by simp, by simp, by simp, by simp, fun i h4 h9 => ?_, fun i h10 => routerBit_of_ge _ _ h10⟩
  have hi : i < 10 := by omega
  simp [hi, h4.not_gt]

/-- Settles O30: a bit of another target than 4 and 5 has the target's index, and a disabled LFO sets none. -/
theorem routerBitsAreExclusive : Obligations.RouterBitsAreExclusive := by
  refine ⟨fun en t h4 h5 i j hi hj => ?_, fun t => BitVec.eq_of_getLsbD_eq fun i _ => ?_, by decide, by decide⟩
  · rw [getLsbD_routerBits] at hi hj
    exact Fin.ext ((toNat_eq_of_routerBit h4 h5 hi).symm.trans (toNat_eq_of_routerBit h4 h5 hj))
  · exact (getLsbD_routerBits 0 t i).trans ((Bool.false_and _).trans BitVec.getLsbD_zero.symm)

end Sys2Proof.Machine
end

section
/-! PROOFS. The filter: its three commands and the bypass, and its linearity in exact arithmetic (R190 to R195). -/

namespace Sys2Proof.Machine

/-! ### One sample in exact arithmetic (R193, R195) -/

/-- The high-pass output `yHP` of one sample over the reals. The other output and the next state follow from it and the state
(`svfStep_reference`). -/
noncomputable def highPass (g r2 x : ℝ) (f : FltState ℝ) : ℝ :=
  (x - f.s1 * (g + r2) - f.s2) / fltDenom reference g r2

/-- The state `a * f + b * f'`, integrator by integrator. -/
noncomputable def combineStates (a b : ℝ) (f f' : FltState ℝ) : FltState ℝ := ⟨a * f.s1 + b * f'.s1, a * f.s2 + b * f'.s2⟩

section
variable {g r2 : ℝ} (hg : 0 < g) (hr : 0 < r2)
include hg hr

theorem fltDenom_reference_pos : 0 < fltDenom reference g r2 := by
  simp only [fltDenom, reference_one, reference_add, reference_mul]
  positivity

theorem svfStep_reference (x : ℝ) (f : FltState ℝ) :
    svfStep reference g r2 x f =
      (⟨f.s1 + 2 * g * highPass g r2 x f, f.s2 + 2 * g * (highPass g r2 x f * g + f.s1)⟩,
        (highPass g r2 x f * g + f.s1) * g + f.s2, highPass g r2 x f) := by
  have hy : reference.div 1 (fltDenom reference g r2) * (x - f.s1 * (g + r2) - f.s2) = highPass g r2 x f := by
    rw [reference_div 1 (fltDenom_reference_pos hg hr), one_div_mul_eq_div, highPass]
  simp only [svfStep, reference_one, reference_add, reference_sub, reference_mul, hy, Prod.mk.injEq,
    FltState.mk.injEq, and_true]
  constructor <;> ring

theorem highPass_eq_zero_iff (x : ℝ) (f : FltState ℝ) : highPass g r2 x f = 0 ↔ x - f.s1 * (g + r2) - f.s2 = 0 := by
  rw [highPass, div_eq_zero_iff, or_iff_left (fltDenom_reference_pos hg hr).ne']

/-- An integrator stands still only on an input of 0: the first one on the high-pass output, the second on the band-pass one. -/
theorem eq_of_svfStep_fixed {c : ℝ} {f : FltState ℝ} (h : (svfStep reference g r2 c f).1 = f) : f = ⟨0, c⟩ := by
  obtain ⟨s1, s2⟩ := f
  rw [svfStep_reference hg hr, FltState.mk.injEq, add_eq_left, add_eq_left, mul_eq_zero_iff_left (by positivity),
    mul_eq_zero_iff_left (by positivity)] at h
  obtain ⟨hHP, hBP⟩ := h
  have hs1 : s1 = 0 := by simpa [hHP] using hBP
  have hx := (highPass_eq_zero_iff hg hr c _).1 hHP
  simp only [hs1, zero_mul, sub_zero] at hx
  rw [hs1, sub_eq_zero.1 hx]

theorem svfStep_at_fixed_point (c : ℝ) : svfStep reference g r2 c ⟨0, c⟩ = (⟨0, c⟩, c, 0) := by
  have hHP : highPass g r2 c ⟨0, c⟩ = 0 := (highPass_eq_zero_iff hg hr c _).2 (by simp)
  simp [svfStep_reference hg hr, hHP]

end

theorem highPass_linear (g r2 a b x y : ℝ) (f f' : FltState ℝ) :
    highPass g r2 (a * x + b * y) (combineStates a b f f') = a * highPass g r2 x f + b * highPass g r2 y f' := by
  simp only [highPass, combineStates]
  ring

theorem svfStep_reference_linear {g r2 : ℝ} (hg : 0 < g) (hr : 0 < r2) (a b x y : ℝ) (f f' : FltState ℝ) :
    svfStep reference g r2 (a * x + b * y) (combineStates a b f f') =
      (combineStates a b (svfStep reference g r2 x f).1 (svfStep reference g r2 y f').1,
        a * (svfStep reference g r2 x f).2.1 + b * (svfStep reference g r2 y f').2.1,
        a * (svfStep reference g r2 x f).2.2 + b * (svfStep reference g r2 y f').2.2) := by
  simp only [svfStep_reference hg hr, highPass_linear]
  simp only [combineStates, Prod.mk.injEq, FltState.mk.injEq, and_true]
  refine ⟨⟨?_, ?_⟩, ?_⟩ <;> ring

/-- Settles O53: the outputs and the next state are linear in the high-pass output and the state, and that output is linear. -/
theorem filterIsLinearWithItsFixedPoint : Obligations.FilterIsLinearWithItsFixedPoint :=
  fun _ _ hg hr => ⟨svfStep_at_fixed_point hg hr, fun _ _ => eq_of_svfStep_fixed hg hr, svfStep_reference_linear hg hr⟩

/-! ### The commands on the machine -/

section
variable (s : State)

theorem exec_fltStart : exec .fltStart s =
    .next { s with regs := (fltStartRegs s.config s.regs).1, rsp := some ⟨false, 0⟩ } :=
  complete_answer s (fltStartRegs s.config s.regs)

theorem exec_fltStop : exec .fltStop s =
    .next { s with regs := (fltStopRegs s.config s.regs).1, rsp := some ⟨false, 0⟩ } :=
  complete_answer s (fltStopRegs s.config s.regs)

end

section
variable {s : State} {x lfo : Num32} (tf tq : Bool)

/-- Bus B is looked at only when bus A carries a number; either way the code is the same. -/
theorem exec_fltApply_none (h : numOfWord s.cmdA = none ∨ numOfWord s.cmdB = none) :
    exec (.fltApply tf tq) s = .next { s with rsp := some ⟨true, 5⟩ } := by
  cases hA : numOfWord s.cmdA with
  | none => exact complete_operand_none hA _
  | some x =>
    have hB : numOfWord s.cmdB = none := h.resolve_left (by simp [hA])
    exact (complete_operand_some hA _).trans (complete_operand_none hB _)

theorem exec_fltApply_bypass (hA : numOfWord s.cmdA = some x) (hB : numOfWord s.cmdB = some lfo)
    (hen : s.regs.par.flt.en = 0) : exec (.fltApply tf tq) s = .next { s with rsp := some ⟨false, s.cmdA⟩ } := by
  refine (complete_operand_some hA _).trans ((complete_operand_some hB _).trans ?_)
  rw [if_pos hen]
  exact complete_respond s s.regs s.cmdA

theorem exec_fltApply_enabled (hA : numOfWord s.cmdA = some x) (hB : numOfWord s.cmdB = some lfo)
    (hen : s.regs.par.flt.en ≠ 0) : exec (.fltApply tf tq) s = .next { s with
      regs := (fltApplyRegs s.config tf tq x lfo s.regs).1
      rsp := some ⟨false, wordOfVal (fltApplyRegs s.config tf tq x lfo s.regs).2⟩ } := by
  refine (complete_operand_some hA _).trans ((complete_operand_some hB _).trans ?_)
  rw [if_neg hen]
  exact complete_answer s (fltApplyRegs s.config tf tq x lfo s.regs)

end

theorem exists_numOfWord_of_isFiniteWord {w : Word} (h : isFiniteWord w = true) : ∃ x, numOfWord w = some x :=
  ⟨_, if_pos h⟩

/-! ### The obligations -/

/-- Settles O31: the two commands write the records of R191 and R192. -/
theorem fltStartAndFltStop : Obligations.FltStartAndFltStop :=
  fun s => ⟨exec_fltStart s, exec_fltStop s, decode_encode (i := .fltStart) rfl, decode_encode (i := .fltStop) rfl⟩

/-- Settles O32: by the operands and the enable; the lines of the rule are those of the filter's functions at the constants of R6,
written out. -/
theorem fltApplyFilters : Obligations.FltApplyFilters := by
  intro tf tq s
  refine ⟨exec_fltApply_none tf tq, fun x lfo hA hB hen => exec_fltApply_bypass tf tq hA hB hen,
    fun x lfo hA hB hen => ?_, ?_⟩
  · have hen0 : s.regs.par.flt.en ≠ 0 := by rw [hen]; decide
    rw [exec_fltApply_enabled tf tq hA hB hen0, fltApplyRegs, if_neg hen0]
    simp only [State.config, fltCutoff, fltRes, fltDenom, svfStep, numClamp, fsEff, samplePeriod, binary32_one,
      binary32_constants, defaultConstants, wordOfVal_num]
  · rw [BitVec.add_assoc]
    exact decode_encode (i := .fltApply tf tq) rfl

/-- Settles O33: the bypass responds with the bus itself, not with the number it denotes. -/
theorem fltApplyBypassesBitForBit : Obligations.FltApplyBypassesBitForBit := by
  intro tf tq s hA hB hen
  obtain ⟨x, hx⟩ := exists_numOfWord_of_isFiniteWord hA
  obtain ⟨lfo, hlfo⟩ := exists_numOfWord_of_isFiniteWord hB
  exact exec_fltApply_bypass tf tq hx hlfo hen

end Sys2Proof.Machine
end

section
/-! PROOFS. The reject, and that CORE never stops: which code a command reports, and the run of any number of steps (R210 to R215). -/

namespace Sys2Proof.Machine

/-! ### What a response reports -/

/-- The response says whether the command was rejected, and carries the code if it was (R82, R210). -/
def Reports (x : Response 32) (err : Bool) (code : Word) : Prop := x.err = err ∧ (x.err = true → x.data = code)

theorem Reports.congr {x : Response 32} {err err' : Bool} {code code' : Word} (h : Reports x err code) (he : err' = err)
    (hc : code' = code) : Reports x err' code' := by
  rw [he, hc]
  exact h

theorem isFiniteWord_eq_isSome (w : Word) : isFiniteWord w = (numOfWord w).isSome := by
  unfold numOfWord
  cases isFiniteWord w <;> rfl

section
variable (n : Nat) (r : Regs Num32)

theorem reports_respond (d code : Word) : Reports (respond r d).2 false code := ⟨rfl, fun h => absurd h Bool.false_ne_true⟩

theorem reports_reject (c : RejectCode) : Reports (reject c r).2 true (rejectWord c) :=
  ⟨rfl, fun _ => BitVec.setWidth_eq _⟩

theorem reports_answer (x : Regs Num32 × RegVal Num32) (code : Word) :
    Reports (answer (binary32Port n) x).2 false code := reports_respond x.1 _ code

/-- A numeric operand adds its own condition to those of the rest of the command, under the code of both (R213). -/
theorem reports_withOperand (a : Word) {run : Num32 → Completion Num32 32} {ok : Bool}
    (h : ∀ v, Reports (run v).2 (!ok) 5) :
    Reports (withOperand (binary32Port n) a r run).2 (!(isFiniteWord a && ok)) 5 := by
  rw [isFiniteWord_eq_isSome]
  rcases withOperand_cases (binary32Port n) a r run with ⟨hd, e⟩ | ⟨v, hd, e⟩ <;>
    rw [e, show numOfWord a = _ from hd]
  · exact reports_reject r .badOperand
  · exact h v

/-- A command whose one numeric operand is on bus A. -/
theorem reports_operandA (a : Word) {run : Num32 → Completion Num32 32} (h : ∀ v, Reports (run v).2 false 5) :
    Reports (withOperand (binary32Port n) a r run).2 (!isFiniteWord a) 5 :=
  (reports_withOperand n r a (ok := true) h).congr (by rw [Bool.and_true]) rfl

/-! ### The commands that can reject -/

/-- WRR: first whether the address is implemented, then in which half it is, last the operand (R212, R214). -/
theorem reports_wrr (addr : Nat) (a b : Word) :
    Reports (wrrCommand (binary32Port n) addr a r).2
      (!((regAt? addr).isSome && decide (addr < 0x80) && operandsFinite (.wrr addr) a b))
      (if (regAt? addr).isNone then 3 else if 0x80 ≤ addr then 4 else 5) := by
  cases h : regAt? addr with
  | none =>
    rw [wrrCommand_none (binary32Port n) a r h]
    exact reports_reject r .badAddr
  | some x =>
    have haddr : regAddr x = addr := regAddr_of_regAt? h
    cases x with
    | state q =>
      have hge : 0x80 ≤ addr := haddr ▸ (stateAddr_ge q).1
      rw [wrrCommand_state (binary32Port n) a r h]
      exact (reports_reject r .roWrite).congr (by simp [hge.not_gt]) (by simp [hge, rejectWord])
    | param p =>
      have hlt : addr < 0x80 := haddr ▸ paramAddr_lt p
      cases hp : paramIsNum p with
      | true =>
        rw [wrrCommand_num (binary32Port n) a r h hp]
        exact (reports_operandA n r a fun v => reports_respond (writeNum r p v) 0 5).congr
          (by simp [h, hp, hlt, operandsFinite]) (by simp [hlt.not_ge])
      | false =>
        rw [wrrCommand_int (binary32Port n) a r h hp]
        exact (reports_respond (writeInt r p a) 0 5).congr (by simp [h, hp, hlt, operandsFinite]) (by simp [hlt.not_ge])

theorem reports_rdr (addr : Nat) :
    Reports (rdrCommand (binary32Port n) addr r).2 (!(regAt? addr).isSome) 3 := by
  cases h : regAt? addr with
  | none =>
    rw [rdrCommand_none _ _ h]
    exact reports_reject r .badAddr
  | some x =>
    rw [rdrCommand_some _ _ h]
    exact reports_respond r _ 3

/-- FLT.APPLY needs both operands, also in the bypass (R213). -/
theorem reports_fltApply (tf tq : Bool) (a b : Word) :
    Reports (fltApplyCommand (binary32Port n) tf tq a b r).2 (!(isFiniteWord a && isFiniteWord b)) 5 := by
  refine reports_withOperand n r a fun x => reports_operandA n r b fun lfo => ?_
  split
  · exact reports_respond r a 5
  · exact reports_answer n _ 5

end

/-! ### The run -/

/-- No step stops: idle, reset and a completed command all have a next state. -/
theorem exists_step_eq_next (s : State) : ∃ t, step s = .next t := by
  rcases step_cases s with ⟨-, hs⟩ | ⟨rest, -, hs⟩ | ⟨c, rest, -, hs⟩
  · exact ⟨_, hs⟩
  · exact ⟨_, hs⟩
  · exact ⟨_, hs.trans (execWord_eq c.word (accept c rest s))⟩

/-- A run's first step. -/
theorem run_succ {s u : State} (h : step s = .next u) (n : Nat) : core.run (n + 1) s = core.run n u := by
  have hcore : core.step s = .next u := h
  simp only [Host.Core.run, hcore]

/-! ### The obligations -/

/-- Settles O38: the decoder's two codes first, then each command's own; a command that names no register and has no operand
answers. -/
theorem rejectReportsTheFirstCode : Obligations.RejectReportsTheFirstCode := by
  intro s c rest hq
  rcases decode_cases c.word with ⟨-, hd⟩ | ⟨o, -, -, hd⟩ | ⟨o, -, -, hd⟩ <;> rw [hd]
  · obtain ⟨t, hs, hr, -⟩ := step_reject hq hd
    exact ⟨t, _, hs, hr, rfl, fun _ => rfl⟩
  · obtain ⟨t, hs, hr, -⟩ := step_reject hq hd
    exact ⟨t, _, hs, hr, rfl, fun _ => rfl⟩
  · refine ⟨_, _, (step_command hq).trans ((execWord_ok hd _).trans (exec_eq _ _)), rfl, ?_⟩
    cases buildInstr o c.word with
    | wrr addr => exact reports_wrr _ _ addr c.a c.b
    | rdr addr => exact reports_rdr _ _ addr
    | oscStart k | oscUpd k tf tc => exact reports_operandA _ _ c.a fun _ => reports_answer _ _ 5
    | fltApply tf tq => exact reports_fltApply _ _ tf tq c.a c.b
    | nop => exact reports_respond _ _ 5
    | _ => exact reports_answer _ _ 5

/-- Settles O39, by induction on the number of steps. -/
theorem coreNeverStops : Obligations.CoreNeverStops := by
  intro n
  induction n with
  | zero => exact fun s => ⟨s, rfl⟩
  | succ n ih =>
    intro s
    obtain ⟨u, hu⟩ := exists_step_eq_next s
    rw [run_succ hu]
    exact ih u

end Sys2Proof.Machine
end

section
/-! PROOFS. Reset and hazards: the reset edge and the idle step, what commands answer after reset, what NOTEON establishes, and the
independence of ENV.NEXT from the other units (R221, R230, R231, R233, R240). -/

namespace Sys2Proof.Machine

/-! ### The reset edge and the idle step -/

/-- A reset edge is the whole step (R230). -/
theorem step_rst {s : State} {rest : List PortEvent} (h : s.queue = .rst :: rest) : step s = .next (resetEdge rest s) := by
  rw [step, h]

/-- With nothing presented the state is kept (R221). -/
theorem step_idle {s : State} (h : s.queue = []) : step s = .next s := by rw [step, h]

/-- Settles O2: the edge leaves the reset registers, no response, and the events that follow it. -/
theorem resetEdgeResetsAndIdleKeepsEverything : Obligations.ResetEdgeResetsAndIdleKeepsEverything :=
  ⟨fun s rest h => ⟨resetEdge rest s, step_rst h, rfl, rfl, rfl⟩, fun _ => step_idle⟩

/-! ### ENV.NEXT and the other units (R240) -/

section
variable {α : Type} (C : Config α) (r : Regs α) (e : Env α)

/-- The noise generator steps ENV_N alone of the envelopes. -/
theorem noiseNextRegs_setEnvA : noiseNextRegs C { r with envA := e } =
    ({ (noiseNextRegs C r).1 with envA := e }, (noiseNextRegs C r).2) := by
  dsimp only [noiseNextRegs]
  split <;> rfl

/-- The filter steps ENV_F alone of the envelopes. -/
theorem fltApplyRegs_setEnvA (tf tq : Bool) (x lfo : α) : fltApplyRegs C tf tq x lfo { r with envA := e } =
    ({ (fltApplyRegs C tf tq x lfo r).1 with envA := e }, (fltApplyRegs C tf tq x lfo r).2) := by
  dsimp only [fltApplyRegs]
  split <;> rfl

/-- A command of another unit neither reads nor writes ENV_A. -/
theorem apply_setEnvA (o : Operands α) {i : Instr} (hwrr : ∀ a, i ≠ .wrr a) (hrdr : ∀ a, i ≠ .rdr a) (hon : i ≠ .envOn)
    (hoff : i ≠ .envOff) (hnext : i ≠ .envNext) (hclosed : i ≠ .envClosed) :
    apply C i o { r with envA := e } = ({ (apply C i o r).1 with envA := e }, (apply C i o r).2) := by
  cases i with
  | wrr addr => exact absurd rfl (hwrr addr)
  | rdr addr => exact absurd rfl (hrdr addr)
  | envOn => exact absurd rfl hon
  | envOff => exact absurd rfl hoff
  | envNext => exact absurd rfl hnext
  | envClosed => exact absurd rfl hclosed
  | oscStart k | oscUpd k tf tc | oscNext k => cases k <;> rfl
  | noiseNext => exact congrArg done (noiseNextRegs_setEnvA C r e)
  | fltApply tf tq => exact congrArg done (fltApplyRegs_setEnvA C r e tf tq o.a o.b)
  | _ => rfl

/-- ENV.NEXT reads ENV_A and the parameters, and writes ENV_A. -/
theorem envNextRegs_congr {r r' : Regs α} (henv : r'.envA = r.envA) (hpar : r'.par = r.par) :
    envNextRegs C r' = ({ r' with envA := (envNextRegs C r).1.envA }, (envNextRegs C r).2) := by
  simp only [envNextRegs, samplePeriod, fsEff, henv, hpar]

end

/-- Settles O58: the other command leaves all that ENV.NEXT reads, and does not see what ENV.NEXT writes. -/
theorem envNextCommutesWithTheOtherUnits : Obligations.EnvNextCommutesWithTheOtherUnits := by
  intro α C i o o' r hwrr hrdr hon hoff hnext hclosed
  have hset : ∀ e, apply C i o' { r with envA := e } = ({ (apply C i o' r).1 with envA := e }, (apply C i o' r).2) :=
    fun e => apply_setEnvA C r e o' hwrr hrdr hon hoff hnext hclosed
  have henv : (apply C i o' r).1.envA = r.envA := congrArg (·.1.envA) (hset r.envA)
  have hfirst : apply C .envNext o (apply C i o' r).1 =
      ({ (apply C i o' r).1 with envA := (envNextRegs C r).1.envA }, (apply C .envNext o r).2) :=
    congrArg done (envNextRegs_congr C henv (apply_par C o' r hwrr))
  have hsecond : apply C i o' (apply C .envNext o r).1 =
      ({ (apply C i o' r).1 with envA := (envNextRegs C r).1.envA }, (apply C i o' r).2) := hset _
  rw [hfirst, hsecond]
  exact ⟨rfl, rfl, rfl⟩

/-! ### The answers after reset (R231) -/

/-- A product with 0 is 0 in binary32, without overflow. -/
theorem mul32_zero (n : Nat) (x : Num32) : mul32 n x ⟨0⟩ = ⟨0⟩ := by
  have hr : roundMag (x.units * 0).natAbs unitsOne = 0 := by
    rw [Int.mul_zero]
    exact roundMag_zero (by decide)
  rw [mul32, finishOp_eq (by rw [hr]; exact Nat.zero_le _), hr, withSign, Int.mul_zero]
  rfl

theorem wordOfNum_zero : wordOfNum ⟨0⟩ = 0 := by decide +kernel

section
variable (n : Nat) {r : Regs Num32}

/-- A silent oscillator: the sample is multiplied by the gain. -/
theorem oscNextRegs_sample_of_gain_zero {k : OscId} (h : (oscParams r k).gain = ⟨0⟩) :
    (oscNextRegs (binary32 n) k r).2 = .num ⟨0⟩ := by
  rw [oscNextRegs, h]
  exact congrArg RegVal.num (mul32_zero n _)

/-- A silent LFO: the sample is multiplied by the depth. -/
theorem lfoNextRegs_sample_of_depth_zero (h : r.par.lfo.depth = ⟨0⟩) :
    (lfoNextRegs (binary32 n) r).2 = .num ⟨0⟩ := by
  rw [lfoNextRegs, h]
  exact congrArg RegVal.num (mul32_zero n _)

end

theorem closed_reset : closed (binary32 0) State.reset.regs.envA = true := by decide +kernel

/-- Settles O59: the envelope is idle, the two gains are 0, and the noise generator, the router and the filter are disabled. -/
theorem resetStateIsSilent : Obligations.ResetStateIsSilent := by
  intro i a b ha hb s answers
  obtain ⟨x, hx⟩ := Option.ne_none_iff_exists'.1 ha
  obtain ⟨lfo, hlfo⟩ := Option.ne_none_iff_exists'.1 hb
  have answers_zero {v : RegVal Num32} {regs : Regs Num32} (hv : v = .num ⟨0⟩)
      (h : exec i s = .next { s with regs := regs, rsp := some ⟨false, wordOfVal v⟩ }) : answers 0 :=
    ⟨_, h, by rw [hv, wordOfVal_num, wordOfNum_zero]⟩
  refine ⟨?_, ?_, ?_, ?_, ?_, ?_, ?_⟩
  · rintro rfl
    exact answers_zero rfl (complete_answer s (envNextRegs s.config s.regs))
  · rintro rfl
    have hclosed : (if closed s.config s.regs.envA = true then 1 else 0 : Word) = 1 := if_pos closed_reset
    exact ⟨_, exec_envClosed s, by rw [hclosed]⟩
  · rintro k rfl
    exact answers_zero (oscNextRegs_sample_of_gain_zero 0 (by cases k <;> rfl)) (exec_oscNext k s)
  · rintro rfl
    exact answers_zero (congrArg Prod.snd (noiseNextRegs_disabled s.config rfl)) (exec_noiseNext s)
  · rintro rfl
    exact answers_zero (lfoNextRegs_sample_of_depth_zero 0 rfl) (exec_lfoNext s)
  · rintro rfl
    exact ⟨_, exec_lfoQry s, rfl⟩
  · rintro tf tq rfl
    exact ⟨_, exec_fltApply_bypass tf tq hx hlfo rfl, rfl⟩

/-! ### NOTEON (R233) -/

/-- The first step of a run whose next event presents a command: the command executes on the accepted state. -/
theorem run_present {s u : State} {i : Instr} {a b : Word} {rest : List PortEvent} (hq : s.queue = present i a b :: rest)
    (hi : i.wf = true) (hu : exec i (accept ⟨encode i, a, b⟩ rest s) = .next u) (n : Nat) :
    core.run (n + 1) s = core.run n u := by
  refine run_succ ?_ n
  rw [step_command hq, execWord_ok (decode_encode hi)]
  exact hu

/-- OSC.START on a number, with PHASE0 evaluated (R132). -/
theorem exec_oscStart_binary32 {s : State} {f : Num32} (k : OscId) (h : numOfWord s.cmdA = some f) :
    exec (.oscStart k) s = .next { s with
      regs := setOscRegs s.regs k ⟨⟨0⟩, f, (oscRegs s.regs k).inc⟩
      rsp := some ⟨false, 0⟩ } := by
  obtain ⟨-, hstart, -⟩ := oscStartSetsBaseAndPhase k s
  exact hstart f h

/-- Settles O60, a command at a time: each runs on the registers the one before it leaves, and writes its own unit alone. -/
theorem noteOnEstablishesTheNote : Obligations.NoteOnEstablishesTheNote := by
  intro s w f rest hw hq
  have hrun : core.run 5 s = core.run 0 _ :=
    calc core.run 5 s
      _ = core.run 4 _ := run_present hq rfl (exec_oscStart_binary32 .osc1 hw) 4
      _ = core.run 3 _ := run_present rfl rfl (exec_oscStart_binary32 .osc2 hw) 3
      _ = core.run 2 _ := run_present rfl rfl (exec_noiseStart _) 2
      _ = core.run 1 _ := run_present rfl rfl (exec_fltStart _) 1
      _ = core.run 0 _ := run_present rfl rfl (exec_envOn _) 0
  exact ⟨_, hrun, rfl, rfl⟩

end Sys2Proof.Machine
end
